-- ==== Sys2Proof/Word.lean ====
section
/-! DEFINITION. The bit vectors of the block: the byte, which is the unit of every transfer (20_memory.md R41),
the 16-bit checksum and the 32-bit status word. All are unsigned (00_scope.md R6). -/

namespace Sys2Proof

/-- A byte, 0 to 255; bit 7 is the most significant (00_scope.md section 6). -/
abbrev Byte := BitVec 8

/-- A 16-bit value: a checksum (10_state.md R26). -/
abbrev Word16 := BitVec 16

/-- A 32-bit value: what READ_STATUS returns (42_control.md R170). -/
abbrev Word32 := BitVec 32

end Sys2Proof
end

