-- ==== Sys2Proof/Config.lean ====
section
/-! DEFINITION. The configuration: the fixed constants of 00_scope.md R3, the counter width, and the five CRC-16
parameters of 00_scope.md R4, which the spec leaves OPEN. The configuration is not state (10_state.md R33). -/

namespace Sys2Proof

/-- The start marker (00_scope.md R3). -/
abbrev START : Byte := 0x55#8

/-- The end marker (00_scope.md R3). The spec's name is `END`. -/
abbrev ENDM : Byte := 0xAA#8

/-- The sender address ENCODE accepts (00_scope.md R3). -/
abbrev SENDER_ID : Int := 0

/-- The lowest target address ENCODE accepts (00_scope.md R3). -/
abbrev TARGET_MIN : Int := 1

/-- The highest target address ENCODE accepts (00_scope.md R3). -/
abbrev TARGET_MAX : Int := 127

/-- The longest payload (00_scope.md R3; the length field is one byte, 30_encoding.md R63). -/
abbrev LEN_MAX : Nat := 255

/-- The bytes of a frame beside its payload (00_scope.md R3, 30_encoding.md R61). -/
abbrev OVERHEAD : Nat := 7

/-- The shortest wire frame (30_encoding.md R62). -/
abbrev MIN_FRAME : Nat := 7

/-- The longest wire frame (30_encoding.md R62). -/
abbrev MAX_FRAME : Nat := 262

/-- The width of the three counters (00_scope.md section 4, 10_state.md R22, R23). -/
abbrev COUNTER_WIDTH : Nat := 32

/-- A wrapping counter of `COUNTER_WIDTH` bits (10_state.md R22). -/
abbrev Counter := BitVec COUNTER_WIDTH

/-- The five CRC-16 parameters (00_scope.md R4). Every operation that computes a checksum takes them as an argument
(92_eei_decisions.md D3). -/
structure CrcParams where
  /-- `CRC16_POLY`: the generator without its x^16 term, bit k standing for x^k. -/
  poly : Word16
  /-- `CRC16_INIT`: the register before the first byte. -/
  init : Word16
  /-- `CRC16_REFIN`: bytes enter bit-reversed. -/
  refin : Bool
  /-- `CRC16_REFOUT`: the register is bit-reversed at the end. -/
  refout : Bool
  /-- `CRC16_XOROUT`: XORed into the result. -/
  xorout : Word16
deriving DecidableEq, Repr

/-- The one constraint on the parameters: `CRC16_POLY` is not 0 (00_scope.md R4). -/
abbrev CrcParams.Admitted (p : CrcParams) : Prop := p.poly ≠ 0#16

namespace Config

/-- OPEN in the spec (00_scope.md R4): one less than `CRC16_POLY`. The numbers below 65535, each plus 1, are exactly
the nonzero 16-bit values, so nothing but `CRC16_POLY != 0` is known of the polynomial. Log entry 1. -/
opaque crc16PolyLessOne : Fin 65535

/-- `CRC16_POLY` of this machine, any nonzero 16-bit value (00_scope.md R4). -/
def crc16Poly : Word16 := BitVec.ofNat 16 (crc16PolyLessOne.val + 1)

/-- OPEN in the spec (00_scope.md R4): `CRC16_INIT` of this machine. Log entry 1. -/
opaque crc16Init : Word16

/-- OPEN in the spec (00_scope.md R4): `CRC16_REFIN` of this machine. Log entry 1. -/
opaque crc16Refin : Bool

/-- OPEN in the spec (00_scope.md R4): `CRC16_REFOUT` of this machine. Log entry 1. -/
opaque crc16Refout : Bool

/-- OPEN in the spec (00_scope.md R4): `CRC16_XOROUT` of this machine. Log entry 1. -/
opaque crc16Xorout : Word16

/-- The CRC parameters of this machine, fixed for its lifetime (10_state.md R33, 70_reset_and_hazards.md R232). -/
def crc : CrcParams :=
  { poly := crc16Poly, init := crc16Init, refin := crc16Refin, refout := crc16Refout, xorout := crc16Xorout }

end Config

end Sys2Proof
end

