-- ==== Sys2Proof/Machine/Bytes.lean ====
section
/-! DEFINITION. The notation of 00_scope.md section 6 over byte sequences and 16-bit values: indexing, slices, the
big-endian pair, the high and low byte, bit reflection. `take` and `drop` are the list operations of those names. -/

namespace Sys2Proof.Machine

/-- `s[i]`, the byte at 0-based offset i, defined for i < len(s). Every use stands behind the length check that makes
the offset exist; past the end it reads 0, which no use can see (log entry 9). -/
def byteAt (s : List Byte) (i : Nat) : Byte := s.getD i 0#8

/-- `slice(s, i, n)` = `take(n, drop(i, s))` (00_scope.md section 6). -/
def slice (s : List Byte) (i n : Nat) : List Byte := (s.drop i).take n

/-- `u16(hi, lo)` = hi * 256 + lo (00_scope.md section 6). -/
def u16 (hi lo : Byte) : Word16 := hi ++ lo

/-- `hi8(v)` = v[15:8] (00_scope.md section 6). -/
def hi8 (v : Word16) : Byte := v.extractLsb' 8 8

/-- `lo8(v)` = v[7:0] (00_scope.md section 6). -/
def lo8 (v : Word16) : Byte := v.extractLsb' 0 8

/-- `reflect_n(v)`: the n-bit value whose bit i is bit (n-1-i) of v (40_codec.md R100). -/
def reflect {n : Nat} (v : BitVec n) : BitVec n := v.reverse

end Sys2Proof.Machine
end

