-- ==== Sys2Proof/Machine/Crc.lean ====
section
/-! DEFINITION. The parametric CRC-16 of 40_codec.md R100, bit-serial, which is the model's CRC; and the byte-wise
form over a 256-entry table that R101 admits beside it. -/

namespace Sys2Proof.Machine

/-- One turn of the inner loop of 40_codec.md R100: shift left by one, and XOR the polynomial if bit 15 was set. -/
def crcShift (p : CrcParams) (reg : Word16) : Word16 :=
  if reg.getLsbD 15 = true then (reg <<< 1) ^^^ p.poly else reg <<< 1

/-- `b << 8` as a 16-bit value: the byte enters reg[15:8] (40_codec.md R100). -/
def byteHigh (b : Byte) : Word16 := b.setWidth 16 <<< 8

/-- The byte as it enters the register (40_codec.md R100). -/
def crcIn (p : CrcParams) (b : Byte) : Byte := if p.refin = true then reflect b else b

/-- One byte of 40_codec.md R100: XOR it into the high half, then eight shifts. -/
def crcByte (p : CrcParams) (reg : Word16) (b : Byte) : Word16 :=
  (crcShift p)^[8] (reg ^^^ byteHigh (crcIn p b))

/-- The register after all of `data`, from a given register (40_codec.md R100). -/
def crcFold (p : CrcParams) (reg : Word16) (data : List Byte) : Word16 := data.foldl (crcByte p) reg

/-- What is returned of the final register (40_codec.md R100). -/
def crcOut (p : CrcParams) (reg : Word16) : Word16 :=
  (if p.refout = true then reflect reg else reg) ^^^ p.xorout

/-- `CRC16(data)` (40_codec.md R100). -/
def crc16 (p : CrcParams) (data : List Byte) : Word16 := crcOut p (crcFold p p.init data)

/-- Entry i of the table of the byte-wise form (40_codec.md R101): eight shifts of i in the high half. -/
def crcTableEntry (p : CrcParams) (i : Nat) : Word16 := (crcShift p)^[8] (byteHigh (BitVec.ofNat 8 i))

/-- The 256-entry table (40_codec.md R101). -/
def crcTable (p : CrcParams) : List Word16 := (List.range 256).map (crcTableEntry p)

/-- One byte of the table-driven form (40_codec.md R101). -/
def crcTableByte (p : CrcParams) (table : List Word16) (reg : Word16) (b : Byte) : Word16 :=
  (reg <<< 8) ^^^ table.getD (hi8 reg ^^^ crcIn p b).toNat 0#16

/-- The table-driven CRC (40_codec.md R101): another way to compute `crc16`. -/
def crc16Table (p : CrcParams) (data : List Byte) : Word16 :=
  crcOut p (data.foldl (crcTableByte p (crcTable p)) p.init)

end Sys2Proof.Machine
end

