-- ==== Sys2Proof/Machine/Request.lean ====
section
/-! DEFINITION. A request as the host issues it, before the interface has looked at it (30_encoding.md section 2): an
op code byte and operands as transaction fields, in the order the spec writes them. The operands are not bit fields
of a wider word. -/

namespace Sys2Proof.Machine

/-- An operand as given, of whatever shape (30_encoding.md R77). -/
inductive Operand where
  /-- An integer of any range. -/
  | int (v : Int)
  /-- A finite sequence of integers, of any length; it is a byte sequence when every element is in 0..255. -/
  | seq (elements : List Int)
  /-- Any other shape, for example a non-integer number, written out as text. -/
  | other (shape : String)
deriving DecidableEq, Repr

/-- A request: the op code byte (30_encoding.md R75) and its operands in the order written (R80). -/
structure Request where
  op : Byte
  operands : List Operand
deriving DecidableEq, Repr

end Sys2Proof.Machine
end

