-- ==== Sys2Proof/Machine/State.lean ====
section
/-! DEFINITION. The state of the block (10_state.md section 1), the records it emits (R26), the results of its
operations (R29, 60_exceptions.md R200), the reasons a step can stop, and the state after reset (R31). -/

namespace Sys2Proof.Machine

/-- `PHASE`, the only sequencing state (10_state.md R28). -/
inductive Phase where
  /-- Between operations. -/
  | idle
  /-- The extraction loop of a PUSH is running. -/
  | extract
deriving DecidableEq, Repr

/-- A frame record (10_state.md R26). The start and end markers are not kept. -/
structure FrameRecord where
  target : Byte
  sender : Byte
  length : Byte
  payload : List Byte
  checksum : Word16
deriving DecidableEq, Repr

/-- The `field` info of `InvalidAddress` (60_exceptions.md R201). -/
inductive AddressField where
  | target
  | sender
deriving DecidableEq, Repr

/-- An error result with the info it records (60_exceptions.md R200). -/
inductive ErrorResult where
  /-- ENCODE: target outside 1..127, or sender not 0 (R201). -/
  | invalidAddress (field : AddressField) (value : Int)
  /-- ENCODE: more than 255 payload bytes (R202). -/
  | payloadTooLong (length : Nat)
  /-- VALIDATE: empty, or the first byte is not the start marker (R203). -/
  | noStartMarker (first : Option Byte)
  /-- VALIDATE: fewer than 7 bytes (R203); `got` is the info `have`. -/
  | tooShort (got : Nat)
  /-- VALIDATE: fewer than L + 7 bytes (R203); `got` is the info `have`. -/
  | truncated (need got : Nat)
  /-- VALIDATE: the byte at offset L + 6 is not the end marker (R204). -/
  | framingError (offset : Nat) (value : Byte)
  /-- VALIDATE: the end marker is right, the checksum is not (R205). -/
  | checksumMismatch (transmitted computed : Word16)
deriving DecidableEq, Repr

/-- What an operation's `ok` carries (30_encoding.md section 2). -/
inductive Value where
  /-- PUSH and RESET: `ok()`. -/
  | unit
  /-- ENCODE: the wire frame's bytes. -/
  | wire (bytes : List Byte)
  /-- VALIDATE: the frame record. -/
  | record (frame : FrameRecord)
  /-- CRC: the 16-bit value. -/
  | crc (v : Word16)
  /-- READ_STATUS: the 32-bit count. -/
  | count (v : Word32)
deriving DecidableEq, Repr

/-- The outcome of a completed operation (10_state.md R29). -/
inductive Response where
  | ok (v : Value)
  | error (e : ErrorResult)
deriving DecidableEq, Repr

/-- The state: the six elements of 10_state.md section 1, and the model's own two fields for the host's side of the
ports (10_state.md R35): the pending requests and the last response. -/
structure State where
  /-- `RXBUF`: received bytes not yet consumed, in arrival order (R20). -/
  rxbuf : List Byte
  /-- `FRAMES_RX`: validated frames (R22). -/
  framesRx : Counter
  /-- `BYTES_RX`: bytes accepted by PUSH (R22). -/
  bytesRx : Counter
  /-- `CRC_FAIL`: candidates discarded for a checksum mismatch (R22). -/
  crcFail : Counter
  /-- `FRAME_OUT`: the records emitted, oldest first (R25). -/
  frameOut : List FrameRecord
  /-- `PHASE` (R28). -/
  phase : Phase
  /-- MODEL'S OWN: the requests the host has issued and the block has not taken, oldest first (log entry 3). -/
  requests : List Request
  /-- MODEL'S OWN: the result of the last completed operation (log entry 4). -/
  response : Option Response
deriving DecidableEq, Repr

/-- The block has no fault: no condition stops it (60_exceptions.md R210). -/
inductive Fault where
deriving DecidableEq, Repr

/-- Why a request has no meaning (60_exceptions.md R207): no code, no result, no state change. Every refusal is safe:
it can only make a claim unprovable. -/
inductive Refusal where
  /-- Raised by exec for an instruction that has no meaning yet. Safe. -/
  | notModelled (mnemonic : String)
  /-- Raised by step for op codes 0x00 and 0x07 to 0xFF (30_encoding.md R76). Safe. -/
  | reservedOpcode (op : Byte)
  /-- Raised by step, and by the assembler layer, for an operand of another shape (30_encoding.md R77). Safe. -/
  | malformedOperand (op : Byte)
  /-- Raised by READ_STATUS for an index of 3 or more (42_control.md R171). Safe. -/
  | reservedStatusIndex (index : Nat)
  /-- Raised by PUSH, RESET and step for a request made while PHASE is EXTRACT (41_decoder.md R139). Safe. -/
  | overlappingRequest
  /-- Raised by the assembler layer for the use of an unbound name (30_encoding.md R80). Safe. -/
  | unboundName (name : String)
deriving DecidableEq, Repr

/-- The outcome of a step or of a meaning. -/
abbrev Outcome := Host.Outcome State Fault Refusal

/-- The state of a new instance (10_state.md R31, 70_reset_and_hazards.md R230). The last two fields are the model's
own (log entries 3 and 4). -/
def State.reset : State :=
  { rxbuf := [], framesRx := 0, bytesRx := 0, crcFail := 0, frameOut := [], phase := .idle
    requests := [], response := none }

end Sys2Proof.Machine
end

