-- ==== Sys2Proof/Machine/Flags.lean ====
section
/-! DEFINITION. The block has no flag or condition-code register (10_state.md R29). What stands in its place: the
counters' update (R23), the status registers that show them (R34), and the codes of the error results
(60_exceptions.md R200). -/

namespace Sys2Proof.Machine

/-- `C <- (C + n) mod 2^COUNTER_WIDTH` (10_state.md R23). -/
def counterAdd (c : Counter) (n : Nat) : Counter := c + BitVec.ofNat COUNTER_WIDTH n

/-- `zext_32` of a counter (42_control.md R170). -/
def zext32 (c : Counter) : Word32 := c.setWidth 32

/-- The status register of an index: 0 `FRAMES_RX`, 1 `BYTES_RX`, 2 `CRC_FAIL`; 3 and above are reserved
(10_state.md R34, 42_control.md R171). -/
def State.statusRegister (s : State) : Nat → Option Word32
  | 0 => some (zext32 s.framesRx)
  | 1 => some (zext32 s.bytesRx)
  | 2 => some (zext32 s.crcFail)
  | _ => none

/-- The numeric code of an error result (60_exceptions.md R200). -/
def ErrorResult.code : ErrorResult → Byte
  | .invalidAddress _ _ => 0x01#8
  | .payloadTooLong _ => 0x02#8
  | .noStartMarker _ => 0x03#8
  | .tooShort _ => 0x04#8
  | .truncated _ _ => 0x05#8
  | .framingError _ _ => 0x06#8
  | .checksumMismatch _ _ => 0x07#8

end Sys2Proof.Machine
end

