-- ==== Sys2Proof/Machine/Ops.lean ====
section
/-! DEFINITION. The named operations over the state that the meanings share: the three ways RXBUF changes
(10_state.md R21), the counters (R23), emission (R25), PHASE (R28), and the end of an operation with a result
(`ok`) or an error (`raise`, 60_exceptions.md R200). The block has no trap (R210): `raise` is what it has in place of
taking an exception, and there is nothing to return from (R211). -/

namespace Sys2Proof.Machine

/-- PUSH appends its chunk at the end of RXBUF (10_state.md R21). -/
def State.appendRx (s : State) (chunk : List Byte) : State := { s with rxbuf := s.rxbuf ++ chunk }

/-- The extraction step removes bytes from the front of RXBUF (10_state.md R21). -/
def State.dropRx (s : State) (n : Nat) : State := { s with rxbuf := s.rxbuf.drop n }

/-- `BYTES_RX <- (BYTES_RX + n) mod 2^COUNTER_WIDTH` (10_state.md R23). -/
def State.countBytes (s : State) (n : Nat) : State := { s with bytesRx := counterAdd s.bytesRx n }

/-- `FRAMES_RX <- (FRAMES_RX + 1) mod 2^COUNTER_WIDTH` (10_state.md R23). -/
def State.countFrame (s : State) : State := { s with framesRx := counterAdd s.framesRx 1 }

/-- `CRC_FAIL <- (CRC_FAIL + 1) mod 2^COUNTER_WIDTH` (10_state.md R23). -/
def State.countCrcFail (s : State) : State := { s with crcFail := counterAdd s.crcFail 1 }

/-- `emit(F)` appends F at the end of FRAME_OUT; it always succeeds (10_state.md R25, R27). -/
def State.emit (s : State) (f : FrameRecord) : State := { s with frameOut := s.frameOut ++ [f] }

/-- `PHASE <- v` (10_state.md R28). -/
def State.setPhase (s : State) (v : Phase) : State := { s with phase := v }

/-- RESET's writes: every state element but FRAME_OUT (42_control.md R172). -/
def State.clear (s : State) : State :=
  { s with rxbuf := [], framesRx := 0, bytesRx := 0, crcFail := 0, phase := .idle }

/-- `ok(v)`: the operation ends with result v (00_scope.md section 6). -/
def State.respond (s : State) (v : Value) : State := { s with response := some (.ok v) }

/-- `raise E(info)`: the operation ends with the error as its result, writes no state element and emits nothing
(60_exceptions.md R200). -/
def State.raise (s : State) (e : ErrorResult) : State := { s with response := some (.error e) }

/-- The end of a codec operation: `ok` of the value, or `raise` of the error. -/
def State.answer (s : State) : Except ErrorResult Value → State
  | .ok v => s.respond v
  | .error e => s.raise e

/-- The host takes the requests in order: the next one is no longer pending (10_state.md R35). -/
def State.takeRequest (s : State) : State := { s with requests := s.requests.tail }

/-- The host issues a request, which is the next one the block takes. PHASE stays as it is: a request issued while a
PUSH runs is still there to be refused (41_decoder.md R139). -/
def State.issue (s : State) (r : Request) : State := { s with requests := r :: s.requests }

end Sys2Proof.Machine
end

