-- ==== Sys2Proof/Machine/Codec.lean ====
section
/-! DEFINITION. The stateless frame codec (40_codec.md): CRC, ENCODE, VALIDATE. Each takes the CRC parameters as an
argument (92_eei_decisions.md D3); the meanings that exec calls apply them to this machine's. No codec operation reads
or writes a state element (10_state.md R32). -/

namespace Sys2Proof.Machine

/-- The interior of a frame, wire offsets 1 to 3+L: target, sender, length, payload (30_encoding.md R60, R67). -/
def frameInterior (target sender : Byte) (payload : List Byte) : List Byte :=
  [target, sender, BitVec.ofNat 8 payload.length] ++ payload

/-- The wire frame with a given checksum (30_encoding.md R60): start marker, interior, checksum big-endian
(20_memory.md R42), end marker. -/
def wireBytes (target sender : Byte) (payload : List Byte) (checksum : Word16) : List Byte :=
  [START] ++ frameInterior target sender payload ++ [hi8 checksum, lo8 checksum] ++ [ENDM]

/-- The wire frame of target, sender and payload (30_encoding.md R60). -/
def wireFrame (p : CrcParams) (target sender : Byte) (payload : List Byte) : List Byte :=
  wireBytes target sender payload (crc16 p (frameInterior target sender payload))

/-- `ENCODE(target, sender, payload)` (40_codec.md R110), with the checks in the order of R114. -/
def encodeFrame (p : CrcParams) (target sender : Int) (payload : List Byte) : Except ErrorResult (List Byte) :=
  if ¬ (TARGET_MIN ≤ target ∧ target ≤ TARGET_MAX) then .error (.invalidAddress .target target)
  else if sender ≠ SENDER_ID then .error (.invalidAddress .sender sender)
  else if payload.length > LEN_MAX then .error (.payloadTooLong payload.length)
  else .ok (wireFrame p (BitVec.ofInt 8 target) (BitVec.ofInt 8 sender) payload)

/-- The length field L of a candidate, the byte at offset 3 (30_encoding.md R63, R69). -/
def lengthField (cand : List Byte) : Nat := (byteAt cand 3).toNat

/-- The transmitted checksum of a candidate with length field L (20_memory.md R42). -/
def transmitted (cand : List Byte) (len : Nat) : Word16 := u16 (byteAt cand (len + 4)) (byteAt cand (len + 5))

/-- The checksum recomputed over offsets 1 to 3+L (40_codec.md R115, R120). -/
def computed (p : CrcParams) (cand : List Byte) (len : Nat) : Word16 := crc16 p (slice cand 1 (len + 3))

/-- The frame record of an accepted candidate (30_encoding.md R70). -/
def recordOf (cand : List Byte) (len : Nat) : FrameRecord :=
  { target := byteAt cand 1, sender := byteAt cand 2, length := byteAt cand 3
    payload := slice cand 4 len, checksum := transmitted cand len }

/-- `VALIDATE(cand)` (40_codec.md R120), with the checks in the order of R121 and R123. -/
def validateFrame (p : CrcParams) (cand : List Byte) : Except ErrorResult FrameRecord :=
  if cand.head? ≠ some START then .error (.noStartMarker cand.head?)
  else if cand.length < MIN_FRAME then .error (.tooShort cand.length)
  else
    let len := lengthField cand
    if cand.length < len + OVERHEAD then .error (.truncated (len + OVERHEAD) cand.length)
    else if byteAt cand (len + 6) ≠ ENDM then .error (.framingError (len + 6) (byteAt cand (len + 6)))
    else if transmitted cand len ≠ computed p cand len then
      .error (.checksumMismatch (transmitted cand len) (computed p cand len))
    else .ok (recordOf cand len)

/-- ENCODE under given CRC parameters (40_codec.md R110). -/
def encodeWith (p : CrcParams) (target sender : Int) (payload : List Byte) (s : State) : Outcome :=
  .next (s.answer ((encodeFrame p target sender payload).map .wire))

/-- VALIDATE under given CRC parameters (40_codec.md R120). -/
def validateWith (p : CrcParams) (cand : List Byte) (s : State) : Outcome :=
  .next (s.answer ((validateFrame p cand).map .record))

/-- CRC under given CRC parameters (40_codec.md R102). -/
def crcWith (p : CrcParams) (data : List Byte) (s : State) : Outcome :=
  .next (s.respond (.crc (crc16 p data)))

/-- ENCODE, op code 0x01 (40_codec.md R110). -/
def execEncode (target sender : Int) (payload : List Byte) (s : State) : Outcome :=
  encodeWith Config.crc target sender payload s

/-- VALIDATE, op code 0x02 (40_codec.md R120). -/
def execValidate (cand : List Byte) (s : State) : Outcome := validateWith Config.crc cand s

/-- CRC, op code 0x03 (40_codec.md R102). -/
def execCrc (data : List Byte) (s : State) : Outcome := crcWith Config.crc data s

end Sys2Proof.Machine
end

