-- ==== Sys2Proof/Machine/Control.lean ====
section
/-! DEFINITION. The control operations READ_STATUS and RESET (42_control.md). -/

namespace Sys2Proof.Machine

/-- READ_STATUS, op code 0x05 (42_control.md R170): the count of the register, which it does not change; an index of 3
or more is refused (R171). -/
def execReadStatus (index : Nat) (s : State) : Outcome :=
  match s.statusRegister index with
  | some v => .next (s.respond (.count v))
  | none => .refused (.reservedStatusIndex index)

/-- RESET, op code 0x06 (42_control.md R172); a RESET that overlaps a running PUSH is refused (41_decoder.md R139). -/
def execReset (s : State) : Outcome :=
  match s.phase with
  | .idle => .next (s.clear.respond .unit)
  | .extract => .refused .overlappingRequest

end Sys2Proof.Machine
end

