-- ==== Sys2Proof/Machine/Stream.lean ====
section
/-! DEFINITION. The stream decoder (41_decoder.md): the extraction step (R132), the extraction loop (R131) and PUSH
(R130), each with the CRC parameters as an argument; and the meaning of PUSH that exec calls. -/

namespace Sys2Proof.Machine

/-- What an extraction step returns (41_decoder.md R131): `STOP`, or `CONTINUE`. -/
inductive Signal where
  | stop
  | again
deriving DecidableEq, Repr

/-- Step 1, resynchronisation (41_decoder.md R132): drop leading bytes until the first is the start marker or none is
left. -/
def resync : List Byte → List Byte
  | [] => []
  | b :: bs => if b = START then b :: bs else resync bs

/-- EXTRACT_STEP (41_decoder.md R132). `buf` is what step 1 leaves of RXBUF, the two length checks are steps 2 and 3,
the rest is step 4: framing error (R136), checksum error (R133), valid frame (R134: remove, count, emit, in that
order). -/
def extractStepWith (p : CrcParams) (s : State) : Signal × State :=
  let buf := resync s.rxbuf
  let len := lengthField buf
  let s1 := { s with rxbuf := buf }
  if buf.length < MIN_FRAME then (.stop, s1)
  else if buf.length < len + OVERHEAD then (.stop, s1)
  else
    let cand := buf.take (len + OVERHEAD)
    if byteAt cand (len + 6) ≠ ENDM then (.again, s1.dropRx 1)
    else if transmitted cand len ≠ computed p cand len then (.again, (s1.dropRx (len + OVERHEAD)).countCrcFail)
    else (.again, ((s1.dropRx (len + OVERHEAD)).countFrame).emit (recordOf cand len))

/-- The extraction loop (41_decoder.md R131), bounded by a number of steps: it ends with `stop` at the first step that
returns STOP, and with `again` if the bound is used up first. A buffer of n bytes needs at most n + 1 steps (R140), so
PUSH never uses its bound up (log entry 2). -/
def extractLoopWith (p : CrcParams) : Nat → State → Signal × State
  | 0, s => (.again, s)
  | n + 1, s =>
    match extractStepWith p s with
    | (.stop, t) => (.stop, t)
    | (.again, t) => extractLoopWith p n t

/-- The start of a PUSH (41_decoder.md R130): append the whole chunk, count its bytes, enter EXTRACT. -/
def beginPush (chunk : List Byte) (s : State) : State :=
  ((s.appendRx chunk).countBytes chunk.length).setPhase .extract

/-- The end of a PUSH (41_decoder.md R130): leave EXTRACT, result `ok()`. -/
def endPush (s : State) : State := (s.setPhase .idle).respond .unit

/-- One transition of a running PUSH (41_decoder.md R131): an extraction step, and the end of the PUSH when it
returns STOP. -/
def extractTransitionWith (p : CrcParams) (s : State) : State :=
  match extractStepWith p s with
  | (.stop, t) => endPush t
  | (.again, t) => t

/-- PUSH(chunk) from IDLE (41_decoder.md R130). -/
def runPushWith (p : CrcParams) (chunk : List Byte) (s : State) : State :=
  let b := beginPush chunk s
  endPush (extractLoopWith p (b.rxbuf.length + 1) b).2

/-- PUSH under given CRC parameters (41_decoder.md R130); a PUSH that overlaps a running PUSH is refused (R139). -/
def pushWith (p : CrcParams) (chunk : List Byte) (s : State) : Outcome :=
  match s.phase with
  | .idle => .next (runPushWith p chunk s)
  | .extract => .refused .overlappingRequest

/-- PUSH, op code 0x04 (41_decoder.md R130). -/
def execPush (chunk : List Byte) (s : State) : Outcome := pushWith Config.crc chunk s

end Sys2Proof.Machine
end

