-- ==== Sys2Proof/Syntax.lean ====
section
/-! DEFINITION. The six operations of spec/opcode_table.json with their operands in the admitted forms of
30_encoding.md R77: addresses are integers of unbounded range, byte sequences are finite and of any length, the status
index is a natural number. -/

namespace Sys2Proof

/-- One operation of the block (30_encoding.md R75). -/
inductive Instr where
  /-- Op code 0x01 (40_codec.md R110). -/
  | encode (target sender : Int) (payload : List Byte)
  /-- Op code 0x02 (40_codec.md R120). -/
  | validate (candidate : List Byte)
  /-- Op code 0x03 (40_codec.md R102). -/
  | crc (data : List Byte)
  /-- Op code 0x04 (41_decoder.md R130). -/
  | push (chunk : List Byte)
  /-- Op code 0x05 (42_control.md R170). -/
  | readStatus (index : Nat)
  /-- Op code 0x06 (42_control.md R172). -/
  | reset
deriving DecidableEq, Repr

end Sys2Proof
end

