-- ==== Sys2Proof/Machine/Dispatch.lean ====
section
/-! DEFINITION. One arm per operation of spec/opcode_table.json, in the table's order. -/

namespace Sys2Proof.Machine

def exec (i : Instr) (s : State) : Host.Outcome State Fault Refusal :=
  match i with
  | .encode target sender payload => Sys2Proof.Machine.execEncode target sender payload s
  | .validate candidate => Sys2Proof.Machine.execValidate candidate s
  | .crc data => Sys2Proof.Machine.execCrc data s
  | .push chunk => Sys2Proof.Machine.execPush chunk s
  | .readStatus index => Sys2Proof.Machine.execReadStatus index s
  | .reset => Sys2Proof.Machine.execReset s

end Sys2Proof.Machine
end

