-- ==== Sys2Proof/Machine/Operands.lean ====
section
/-! DEFINITION. The operand forms of 30_encoding.md R77: each reads one operand of a request as an integer, a natural
number or a byte sequence, and answers none for an operand of another shape; and the way back. -/

namespace Sys2Proof.Machine

/-- A sequence element as a byte: none outside 0..255 (30_encoding.md R77). -/
def byteOfInt (v : Int) : Option Byte :=
  if 0 ≤ v ∧ v ≤ 255 then some (BitVec.ofInt 8 v) else none

/-- A sequence as a byte sequence: none if one element is outside 0..255 (30_encoding.md R77). -/
def bytesOfInts : List Int → Option (List Byte)
  | [] => some []
  | v :: vs =>
    match byteOfInt v, bytesOfInts vs with
    | some b, some bs => some (b :: bs)
    | _, _ => none

/-- A byte as a sequence element: its unsigned value. -/
def intOfByte (b : Byte) : Int := (b.toNat : Int)

/-- `target` and `sender`: an integer of unbounded range (30_encoding.md R77). -/
def Operand.asInt : Operand → Option Int
  | .int v => some v
  | .seq _ => none
  | .other _ => none

/-- `index`: a natural number (30_encoding.md R77). -/
def Operand.asNat : Operand → Option Nat
  | .int v => if 0 ≤ v then some v.toNat else none
  | .seq _ => none
  | .other _ => none

/-- `payload`, `candidate`, `data`, `chunk`: a finite byte sequence of any length (30_encoding.md R77). -/
def Operand.asBytes : Operand → Option (List Byte)
  | .int _ => none
  | .seq es => bytesOfInts es
  | .other _ => none

/-- A byte sequence as an operand. -/
def Operand.ofBytes (bs : List Byte) : Operand := .seq (bs.map intOfByte)

/-- A natural number as an operand. -/
def Operand.ofNat (n : Nat) : Operand := .int (n : Int)

end Sys2Proof.Machine
end

