-- ==== Sys2Proof/Decode.lean ====
section
/-! DEFINITION. The operation interface's encoding (30_encoding.md section 2, spec/opcode_table.json): the op code is
one byte, matched exactly (R75); reserved op codes and malformed operands are rejected by name (R76, R77). After the
decoder, the encoder, and the reading of an opcode-table word. -/

namespace Sys2Proof

open Machine (Operand Request)

/-- ENCODE's op code (30_encoding.md R75). -/
def opEncode : Byte := 0x01#8
/-- VALIDATE's op code (30_encoding.md R75). -/
def opValidate : Byte := 0x02#8
/-- CRC's op code (30_encoding.md R75). -/
def opCrc : Byte := 0x03#8
/-- PUSH's op code (30_encoding.md R75). -/
def opPush : Byte := 0x04#8
/-- READ_STATUS's op code (30_encoding.md R75). -/
def opReadStatus : Byte := 0x05#8
/-- RESET's op code (30_encoding.md R75). -/
def opReset : Byte := 0x06#8

/-- Why the interface does not take a request (60_exceptions.md R207). -/
inductive Reject where
  /-- Op codes 0x00 and 0x07 to 0xFF (30_encoding.md R76). -/
  | reservedOpcode (op : Byte)
  /-- An operand of another shape than the operation's (30_encoding.md R77). -/
  | malformedOperand (op : Byte)
deriving DecidableEq, Repr

/-- ENCODE's operands: target, sender, payload (30_encoding.md section 2). -/
def decodeEncode : List Operand → Option Instr
  | [t, s, p] =>
    match t.asInt, s.asInt, p.asBytes with
    | some t, some s, some p => some (.encode t s p)
    | _, _, _ => none
  | _ => none

/-- The operand of VALIDATE, CRC and PUSH: one byte sequence (30_encoding.md section 2). -/
def decodeBytes (make : List Byte → Instr) : List Operand → Option Instr
  | [b] =>
    match b.asBytes with
    | some bs => some (make bs)
    | none => none
  | _ => none

/-- READ_STATUS's operand: the index (30_encoding.md section 2). -/
def decodeReadStatus : List Operand → Option Instr
  | [i] =>
    match i.asNat with
    | some n => some (.readStatus n)
    | none => none
  | _ => none

/-- RESET has no operand (30_encoding.md section 2). -/
def decodeReset : List Operand → Option Instr
  | [] => some .reset
  | _ => none

/-- The operation an admitted op code selects, with its operands read; `none` inside for a malformed operand, `none`
outside for a reserved op code (30_encoding.md R75 to R77). -/
def decodeByOp (op : Byte) (operands : List Operand) : Option (Option Instr) :=
  if op = opEncode then some (decodeEncode operands)
  else if op = opValidate then some (decodeBytes .validate operands)
  else if op = opCrc then some (decodeBytes .crc operands)
  else if op = opPush then some (decodeBytes .push operands)
  else if op = opReadStatus then some (decodeReadStatus operands)
  else if op = opReset then some (decodeReset operands)
  else none

/-- The decoder: total on requests, rejecting by name (30_encoding.md R75 to R77). -/
def decode (r : Request) : Except Reject Instr :=
  match decodeByOp r.op r.operands with
  | none => .error (.reservedOpcode r.op)
  | some none => .error (.malformedOperand r.op)
  | some (some i) => .ok i

/-- The encoder: the request that denotes an operation (30_encoding.md section 2). -/
def encode : Instr → Request
  | .encode t s p => { op := opEncode, operands := [.int t, .int s, .ofBytes p] }
  | .validate c => { op := opValidate, operands := [.ofBytes c] }
  | .crc d => { op := opCrc, operands := [.ofBytes d] }
  | .push c => { op := opPush, operands := [.ofBytes c] }
  | .readStatus n => { op := opReadStatus, operands := [.ofNat n] }
  | .reset => { op := opReset, operands := [] }

/-- The operands of an operation, all zero: the integer 0, the empty sequence (log entry 7). -/
def zeroOperands (op : Byte) : List Operand :=
  if op = opEncode then [.int 0, .int 0, .seq []]
  else if op = opValidate then [.seq []]
  else if op = opCrc then [.seq []]
  else if op = opPush then [.seq []]
  else if op = opReadStatus then [.int 0]
  else []

/-- The request an opcode-table word of `nbits` bits stands for: its low byte is the op code, every operand field is
zero. A bit above the op code byte belongs to no field of a request, so it makes the request malformed
(log entry 7). -/
def requestOfTableWord (nbits w : Nat) : Request :=
  let v := w % 2 ^ nbits
  let op : Byte := BitVec.ofNat 8 v
  { op := op
    operands := zeroOperands op ++ (if v / 256 = 0 then [] else [.other "bits above the op code byte"]) }

/-- The instruction the decoder reads from an opcode-table word, none where it rejects (spec/opcode_table.json). -/
def decodeTableWord (nbits w : Nat) : Option Instr :=
  match decode (requestOfTableWord nbits w) with
  | .ok i => some i
  | .error _ => none

end Sys2Proof
end

