-- ==== Sys2Proof/Machine/Interface.lean ====
section
/-! DEFINITION. How the block takes a request (10_state.md R35, 60_exceptions.md R207): step is this operation, given
the operations' meanings. -/

namespace Sys2Proof.Machine

/-- The refusal of a request the interface rejects (60_exceptions.md R207). -/
def refusalOf : Reject → Refusal
  | .reservedOpcode op => .reservedOpcode op
  | .malformedOperand op => .malformedOperand op

/-- The block takes its next request and runs it to completion (00_scope.md R5, 10_state.md R35).
With no request pending nothing happens (log entry 3). While PHASE is EXTRACT a pending request overlaps the running
PUSH and is refused (41_decoder.md R139); with none pending the running PUSH goes on by one transition (log entry 5). -/
def serveWith (p : CrcParams) (run : Instr → State → Outcome) (s : State) : Outcome :=
  match s.phase, s.requests with
  | .idle, [] => .next s
  | .idle, r :: _ =>
    match decode r with
    | .ok i => run i s.takeRequest
    | .error e => .refused (refusalOf e)
  | .extract, [] => .next (extractTransitionWith p s)
  | .extract, _ :: _ => .refused .overlappingRequest

end Sys2Proof.Machine
end

