-- ==== Sys2Proof/Machine/Step.lean ====
section
/-! DEFINITION. One step of the block, and the placing of an opcode-table word as its next request. -/

namespace Sys2Proof.Machine

/-- One step: the block takes its next request and runs it (00_scope.md R5), under this machine's CRC parameters. -/
def step (s : State) : Host.Outcome State Fault Refusal := serveWith Config.crc exec s

/-- The host issues, as the next request, the one an opcode-table word stands for (log entry 7). It is run when PHASE is
IDLE; while a PUSH runs the step refuses it (41_decoder.md R139, log entry 5). -/
def State.withFetchWord (s : State) (nbits w : Nat) : State := s.issue (requestOfTableWord nbits w)

end Sys2Proof.Machine
end

