-- ==== Sys2Proof/Machine/Assembler.lean ====
section
/-! DEFINITION. The assembler forms of 30_encoding.md section 3 (the spec's notation for request sequences,
92_eei_decisions.md D25), as syntax trees: operation lines with `$name` bindings (R80), ENCODEQ (R81) and LOOPBACK
(R82). This is the host's side; the block sees only the requests the lines denote. The step function is an argument,
so that a program can be run under any CRC parameters. -/

namespace Sys2Proof.Machine

/-- `<bytes>` of 30_encoding.md section 3. -/
inductive BytesExpr where
  /-- `[hh hh ...]`. -/
  | hex (bs : List Byte)
  /-- `"ascii text"`, one byte per character at its ASCII code. -/
  | text (chars : List Char)
  /-- `[hh]*n`. -/
  | rep (b : Byte) (n : Nat)
  /-- `<bytes> ++ <bytes>`. -/
  | cat (a b : BytesExpr)
  /-- `$<name>`. -/
  | var (name : String)
deriving DecidableEq, Repr

/-- READ_STATUS's operand: a register's name or an index (30_encoding.md section 3, 10_state.md R34). -/
inductive StatusRef where
  | framesRx
  | bytesRx
  | crcFail
  | index (n : Nat)
deriving DecidableEq, Repr

/-- An operation with its operands as written (30_encoding.md section 3). -/
inductive AsmOp where
  | encode (t s : Int) (p : BytesExpr)
  | validate (b : BytesExpr)
  | crc (b : BytesExpr)
  | push (b : BytesExpr)
  | readStatus (r : StatusRef)
  | reset
  /-- `ENCODEQ t=<int>, tag="<text>"` (30_encoding.md R81). -/
  | encodeq (t : Int) (tag : List Char)
deriving DecidableEq, Repr

/-- A line: an operation, with the name its result is bound to if there is one (R80), or LOOPBACK (R82). -/
inductive AsmLine where
  | op (bind : Option String) (o : AsmOp)
  | loopback (t : Int) (p : BytesExpr)
deriving DecidableEq, Repr

/-- The values bound to names so far. -/
abbrev Bindings := List (String × Value)

/-- The value of a name, if it is bound (30_encoding.md R80). -/
def Bindings.find (name : String) : Bindings → Option Value
  | [] => none
  | (n, v) :: rest => if n = name then some v else Bindings.find name rest

/-- The bindings without a name (30_encoding.md R80: a line that raises an error leaves its name unbound). -/
def Bindings.unbind (name : String) (env : Bindings) : Bindings := env.filter (fun e => decide (e.1 ≠ name))

/-- The bindings with a name bound to a value (30_encoding.md R80). -/
def Bindings.bind (name : String) (v : Value) (env : Bindings) : Bindings := (name, v) :: Bindings.unbind name env

/-- The bytes of a text, one per character at its ASCII code; none if a character has no ASCII code (log entry 8). -/
def asciiBytes : List Char → Option (List Byte)
  | [] => some []
  | c :: cs =>
    match asciiBytes cs with
    | some bs => if c.toNat < 128 then some (BitVec.ofNat 8 c.toNat :: bs) else none
    | none => none

/-- The operand a `<bytes>` denotes under the bindings. An unbound name is refused (30_encoding.md R80); a name bound
to something other than bytes, or a text outside ASCII, is an operand of another shape (log entry 8). -/
def BytesExpr.eval (op : Byte) (env : Bindings) : BytesExpr → Except Refusal (List Byte)
  | .hex bs => .ok bs
  | .text cs =>
    match asciiBytes cs with
    | some bs => .ok bs
    | none => .error (.malformedOperand op)
  | .rep b n => .ok (List.replicate n b)
  | .cat a b =>
    match a.eval op env with
    | .error e => .error e
    | .ok x =>
      match b.eval op env with
      | .error e => .error e
      | .ok y => .ok (x ++ y)
  | .var name =>
    match Bindings.find name env with
    | none => .error (.unboundName name)
    | some (.wire bs) => .ok bs
    | some _ => .error (.malformedOperand op)

/-- The index a status register's name stands for (10_state.md R34). -/
def StatusRef.number : StatusRef → Nat
  | .framesRx => 0
  | .bytesRx => 1
  | .crcFail => 2
  | .index n => n

/-- The request an operation denotes under the bindings (30_encoding.md R80): the op code of R75 and the operands in
the order written. ENCODEQ is the ENCODE with sender 0 and the payload `"<text>?"` (R81). -/
def AsmOp.request (env : Bindings) : AsmOp → Except Refusal Request
  | .encode t s p => (p.eval opEncode env).map fun bs => Sys2Proof.encode (.encode t s bs)
  | .validate b => (b.eval opValidate env).map fun bs => Sys2Proof.encode (.validate bs)
  | .crc b => (b.eval opCrc env).map fun bs => Sys2Proof.encode (.crc bs)
  | .push b => (b.eval opPush env).map fun bs => Sys2Proof.encode (.push bs)
  | .readStatus r => .ok (Sys2Proof.encode (.readStatus r.number))
  | .reset => .ok (Sys2Proof.encode .reset)
  | .encodeq t tag => ((BytesExpr.text (tag ++ ['?'])).eval opEncode env).map fun bs => Sys2Proof.encode (.encode t 0 bs)

/-- A host session: the machine and the names bound so far. -/
structure Session where
  machine : State
  bindings : Bindings
deriving DecidableEq, Repr

/-- The outcome of a line or of a program. -/
abbrev SessionOutcome := Host.Outcome Session Fault Refusal

/-- The bindings after a line that binds `name` and whose operation ended with `r` (30_encoding.md R80). -/
def bindResult (name : Option String) (r : Option Response) (env : Bindings) : Bindings :=
  match name, r with
  | none, _ => env
  | some n, some (.ok v) => Bindings.bind n v env
  | some n, some (.error _) => Bindings.unbind n env
  | some n, none => Bindings.unbind n env

/-- One operation line (30_encoding.md R80): the host issues the request the line denotes, and the block runs it, or
refuses it, for example when a PUSH is still running (41_decoder.md R139). -/
def runOp (stp : State → Outcome) (name : Option String) (o : AsmOp) (w : Session) : SessionOutcome :=
  match o.request w.bindings with
  | .error r => .refused r
  | .ok req =>
    match stp (w.machine.issue req) with
    | .next t => .next { machine := t, bindings := bindResult name t.response w.bindings }
    | .fault f => .fault f
    | .refused r => .refused r

/-- One line. LOOPBACK is `$w = ENCODE t=<int>, s=0, p=<bytes>` and then `PUSH $w`; if the ENCODE raises an error the
PUSH is not performed (30_encoding.md R82; log entry 8). -/
def runLine (stp : State → Outcome) (l : AsmLine) (w : Session) : SessionOutcome :=
  match l with
  | .op name o => runOp stp name o w
  | .loopback t p =>
    match runOp stp (some "w") (.encode t 0 p) w with
    | .next v =>
      match Bindings.find "w" v.bindings with
      | some _ => runOp stp none (.push (.var "w")) v
      | none => .next v
    | .fault f => .fault f
    | .refused r => .refused r

/-- A program: its lines in order, up to the first one that is refused (60_exceptions.md R207). -/
def runLines (stp : State → Outcome) : List AsmLine → Session → SessionOutcome
  | [], w => .next w
  | l :: ls, w =>
    match runLine stp l w with
    | .next v => runLines stp ls v
    | .fault f => .fault f
    | .refused r => .refused r

end Sys2Proof.Machine
end

