-- ==== Sys2Proof/Machine/Instances.lean ====
section
/-! DEFINITION. The machine under any CRC parameters (92_eei_decisions.md D3), and several block instances side by side
(20_memory.md R54, 60_exceptions.md R214): each has its own parameters, fixed for its lifetime, and its own state. -/

namespace Sys2Proof.Machine

/-- exec under given CRC parameters; exec itself is this under Config's. -/
def execWith (p : CrcParams) (i : Instr) (s : State) : Outcome :=
  match i with
  | .encode target sender payload => encodeWith p target sender payload s
  | .validate candidate => validateWith p candidate s
  | .crc data => crcWith p data s
  | .push chunk => pushWith p chunk s
  | .readStatus index => execReadStatus index s
  | .reset => execReset s

/-- step under given CRC parameters; step itself is this under Config's. -/
def stepWith (p : CrcParams) (s : State) : Outcome := serveWith p (execWith p) s

/-- One block instance (60_exceptions.md R214): its configuration, which nothing writes (10_state.md R33) and which must
be admitted, so that there is no instance with polynomial 0 (00_scope.md R4), and its state. -/
structure Instance where
  params : CrcParams
  admitted : params.Admitted
  state : State
deriving DecidableEq, Repr

/-- A new instance is in the reset state (70_reset_and_hazards.md R230), with its parameters fixed before its first
operation (R232) to admitted ones (00_scope.md R4). -/
def Instance.start (p : CrcParams) (h : p.Admitted) : Instance := { params := p, admitted := h, state := State.reset }

/-- The operation of instance k among several: only that one moves (20_memory.md R54). With no such instance nothing
happens. -/
def stepInstance (k : Nat) (sys : List Instance) : Host.Outcome (List Instance) Fault Refusal :=
  match sys[k]? with
  | none => .next sys
  | some x =>
    match stepWith x.params x.state with
    | .next t => .next (sys.set k { x with state := t })
    | .fault f => .fault f
    | .refused r => .refused r

end Sys2Proof.Machine
end

