-- ==== Sys2Proof/WellFormed.lean ====
section
/-! DEFINITION. Which operations the spec gives a meaning. The types of `Instr` already hold the operand forms of
30_encoding.md R77; ENCODE checks its address and length ranges itself (40_codec.md R110), so an out-of-range address
is well formed. The one check left is the status index. -/

namespace Sys2Proof

/-- Status indices 3 and above are reserved (42_control.md R171). -/
abbrev STATUS_INDICES : Nat := 3

/-- The operation is one the spec gives a result: every operation but READ_STATUS of a reserved index
(42_control.md R171). -/
def WellFormed : Instr → Bool
  | .encode _ _ _ => true
  | .validate _ => true
  | .crc _ => true
  | .push _ => true
  | .readStatus index => decide (index < STATUS_INDICES)
  | .reset => true

end Sys2Proof
end

