-- ==== Sys2Proof/Safety.lean ====
section
/-! DEFINITION. The terms in which claims are stated: a quiescent buffer (41_decoder.md R141), a record that its own
wire bytes validate (R147), the invariant of the states between operations, agreement of two states on the block's
elements, a safe run, and the pieces a received stream falls into (R148). -/

namespace Sys2Proof.Machine

/-- A quiescent buffer (41_decoder.md R141): empty, or it begins with the start marker and holds no whole candidate. -/
def Quiescent (buf : List Byte) : Prop :=
  buf = [] ∨ (buf.head? = some START ∧ (buf.length < MIN_FRAME ∨ buf.length < lengthField buf + OVERHEAD))

/-- The sequence begins with a whole candidate (41_decoder.md R132, steps 1 to 3 passed). -/
structure Whole (buf : List Byte) : Prop where
  start : buf.head? = some START
  minimum : MIN_FRAME ≤ buf.length
  complete : lengthField buf + OVERHEAD ≤ buf.length

/-- The wire bytes of a record (41_decoder.md R147). -/
def FrameRecord.wire (f : FrameRecord) : List Byte :=
  [START, f.target, f.sender, f.length] ++ f.payload ++ [hi8 f.checksum, lo8 f.checksum, ENDM]

/-- A record is valid if VALIDATE accepts its wire bytes and gives the record back (41_decoder.md R147). -/
def FrameRecord.Valid (p : CrcParams) (f : FrameRecord) : Prop := validateFrame p f.wire = .ok f

/-- The states between operations (10_state.md R28, 41_decoder.md R141, R147): PHASE is IDLE, the buffer is quiescent,
and every emitted record is valid. -/
structure Inv (s : State) : Prop where
  idle : s.phase = .idle
  quiescent : Quiescent s.rxbuf
  emitted : ∀ f ∈ s.frameOut, f.Valid Config.crc

/-- Two states agree on the six state elements of 10_state.md section 1. -/
structure SameBlock (s t : State) : Prop where
  rxbuf : t.rxbuf = s.rxbuf
  framesRx : t.framesRx = s.framesRx
  bytesRx : t.bytesRx = s.bytesRx
  crcFail : t.crcFail = s.crcFail
  frameOut : t.frameOut = s.frameOut
  phase : t.phase = s.phase

/-- Two states agree on everything but the three counters (10_state.md R24). -/
structure SameButCounters (s t : State) : Prop where
  rxbuf : t.rxbuf = s.rxbuf
  frameOut : t.frameOut = s.frameOut
  phase : t.phase = s.phase
  requests : t.requests = s.requests

/-- A run of k steps in which no request is refused (60_exceptions.md R207). -/
def SafeRun : Nat → State → Prop
  | 0, _ => True
  | k + 1, s => ∃ t, step s = .next t ∧ SafeRun k t

/-- The pushes of several chunks, one after another (41_decoder.md R143 to R145). -/
def pushAll : List (List Byte) → State → Outcome
  | [], s => .next s
  | c :: cs, s =>
    match exec (.push c) s with
    | .next t => pushAll cs t
    | .fault f => .fault f
    | .refused r => .refused r

/-- A byte sequence with one bit of one byte flipped (40_codec.md R103, R125). -/
def flipBit (d : List Byte) (i k : Nat) : List Byte := d.modify i (fun b => b ^^^ (1#8 <<< k))

/-- A piece of the received stream, by what the decoder did with it (41_decoder.md R148). -/
inductive Piece where
  /-- (a) A byte discarded by step 1. -/
  | noise (b : Byte)
  /-- (b) The start marker discarded by a framing-error slide. -/
  | slide
  /-- (c) A candidate discarded for a checksum error. -/
  | corrupt (cand : List Byte)
  /-- (d) An emitted frame. -/
  | frame (f : FrameRecord)
deriving DecidableEq, Repr

/-- The bytes of the stream that a piece takes. -/
def Piece.bytes : Piece → List Byte
  | .noise b => [b]
  | .slide => [START]
  | .corrupt cand => cand
  | .frame f => f.wire

/-- The record a piece emits, if it emits one. -/
def Piece.emits : Piece → Option FrameRecord
  | .noise _ => none
  | .slide => none
  | .corrupt _ => none
  | .frame f => some f

/-- Whether a piece counts in CRC_FAIL. -/
def Piece.isCorrupt : Piece → Bool
  | .noise _ => false
  | .slide => false
  | .corrupt _ => true
  | .frame _ => false

/-- A piece is what its name says, where it stands: `stream` is the received stream from the piece's first byte on. A
noise byte is no start marker. Where the stream begins with a whole candidate, the piece is the slid start marker if the
candidate's end marker is wrong (R136), the whole candidate if VALIDATE finds its checksum wrong (R133), and the frame
that VALIDATE accepts (R134, R135). -/
def Piece.Legit (p : CrcParams) (stream : List Byte) : Piece → Prop
  | .noise b => b ≠ START
  | .slide => Whole stream ∧ byteAt stream (lengthField stream + 6) ≠ ENDM
  | .corrupt cand => Whole stream ∧ cand = stream.take (lengthField stream + OVERHEAD) ∧
      ∃ tx rc, validateFrame p cand = .error (.checksumMismatch tx rc)
  | .frame f => Whole stream ∧ validateFrame p (stream.take (lengthField stream + OVERHEAD)) = .ok f

/-- A stream falls, from its front on, into pieces that are legitimate where they stand, and a residual that holds no
whole candidate and begins with a start marker if it is not empty (41_decoder.md R148, R141). A stream falls apart in
one way only (obligation StreamSoundness). -/
def Divides (p : CrcParams) : List Byte → List Piece → List Byte → Prop
  | stream, [], residual => stream = residual ∧ Quiescent residual
  | stream, x :: xs, residual => ∃ rest, stream = x.bytes ++ rest ∧ x.Legit p stream ∧ Divides p rest xs residual

end Sys2Proof.Machine
end

