-- ==== Sys2Proof/Certificates/Slice0/Obligations.lean ====
section
/-! DEFINITION. What is claimed of the model: each obligation formalises rules of spec/, named in its docstring.
OBLIGATIONS.json lists them. The checksum is that of any admitted CRC parameters: where a statement is about `exec`
it holds for `Config.crc`, of which nothing is known but that its polynomial is not 0. -/

open Sys2Proof Sys2Proof.Machine

/-! ### Reset and configuration -/

/-- The reset values of R31, in the state of a new instance (R230). -/
def Obligations.ResetHasSpecValues : Prop :=
  State.reset.rxbuf = [] ∧ State.reset.framesRx = 0 ∧ State.reset.bytesRx = 0 ∧ State.reset.crcFail = 0 ∧
  State.reset.phase = .idle ∧ State.reset.frameOut = []

/-- RESET completes: it clears every state element but FRAME_OUT, answers ok(), and is idempotent (R172). That it keeps
the pending requests, which are no state element of the block, is the model's choice (log entry 3). -/
def Obligations.ResetClearsAllButFrameOut : Prop :=
  ∀ s : State, s.phase = .idle →
    ∃ t, exec .reset s = .next t ∧ t.rxbuf = [] ∧ t.framesRx = 0 ∧ t.bytesRx = 0 ∧ t.crcFail = 0 ∧ t.phase = .idle ∧
      t.frameOut = s.frameOut ∧ t.requests = s.requests ∧ t.response = some (.ok .unit) ∧
      exec .reset t = .next t

/-- The polynomial of the machine's CRC parameters is not 0 (R4). -/
def Obligations.ConfigPolynomialNonzero : Prop := Config.crc.poly ≠ 0#16

/-! ### The operation interface -/

/-- The op codes of spec/opcode_table.json, written out, select the six operations (R75), and no other byte selects one
(R76). That the op code byte of a table word stands for the request with zero operands is the model's choice (log
entry 7). A sanity statement. -/
def Obligations.TableWordsDecode : Prop :=
  decodeTableWord 8 0b00000001 = some (.encode 0 0 []) ∧ decodeTableWord 8 0b00000010 = some (.validate []) ∧
  decodeTableWord 8 0b00000011 = some (.crc []) ∧ decodeTableWord 8 0b00000100 = some (.push []) ∧
  decodeTableWord 8 0b00000101 = some (.readStatus 0) ∧ decodeTableWord 8 0b00000110 = some .reset ∧
  decodeTableWord 8 0b00000000 = none ∧ ∀ w, 7 ≤ w → w < 256 → decodeTableWord 8 w = none

/-- Decoding an encoded operation gives it back, for every operation and every operand, addresses of any range and
byte sequences of any length (R75, R77). -/
def Obligations.DecodeOfEncode : Prop := ∀ i : Instr, decode (encode i) = .ok i

/-- A request that decodes to an operation is the one the encoder writes for it: no two requests denote one operation
(R75, R77, R80). That a request with a further operand, or one too few, never decodes is the model's reading (log
entry 6). -/
def Obligations.EncodeOfDecode : Prop := ∀ (r : Request) (i : Instr), decode r = .ok i → encode i = r

/-- The next request, once decoded, is what a step runs, with that request no longer pending (R5, R35). -/
def Obligations.StepRunsDecodedRequest : Prop :=
  ∀ (s : State) (r : Request) (rest : List Request) (i : Instr),
    s.phase = .idle → s.requests = r :: rest → decode r = .ok i → step s = exec i { s with requests := rest }

/-- Op codes 0x00 and 0x07 to 0xFF are refused, whatever the operands (R76). -/
def Obligations.ReservedOpcodesRefused : Prop :=
  ∀ (s : State) (r : Request) (rest : List Request),
    s.phase = .idle → s.requests = r :: rest → (r.op.toNat = 0 ∨ 7 ≤ r.op.toNat) →
      step s = .refused (.reservedOpcode r.op)

/-- The operand forms of R77, both ways: a request whose operands are of the admitted forms is taken, addresses of any
range and byte sequences of any length; operands of any other shape are refused: an address that is no integer, a
sequence operand that is no byte sequence (one element outside 0..255 is enough), an index that is no natural number.
That a wrong number of operands is refused too is the model's reading (log entry 6). -/
def Obligations.MalformedOperandsRefused : Prop :=
  ∀ (s : State) (r : Request) (rest : List Request), s.phase = .idle → s.requests = r :: rest →
    (∀ i : Instr, r = encode i → step s = exec i { s with requests := rest }) ∧
    (r.op = 0x01#8 → (∀ t sd p, r.operands ≠ [.int t, .int sd, .ofBytes p]) →
      step s = .refused (.malformedOperand 0x01#8)) ∧
    ((r.op = 0x02#8 ∨ r.op = 0x03#8 ∨ r.op = 0x04#8) → (∀ b, r.operands ≠ [.ofBytes b]) →
      step s = .refused (.malformedOperand r.op)) ∧
    (r.op = 0x05#8 → (∀ n : Nat, r.operands ≠ [.int (n : Int)]) → step s = .refused (.malformedOperand 0x05#8)) ∧
    (r.op = 0x06#8 → r.operands ≠ [] → step s = .refused (.malformedOperand 0x06#8)) ∧
    (∀ (u : List Int) (v : Int) (w : List Int), (v < 0 ∨ 255 < v) → ∀ b, Operand.seq (u ++ v :: w) ≠ .ofBytes b)

/-- A PUSH or RESET requested while PHASE is EXTRACT is refused (R139): by exec, by a step whose next request it is, by
the step after the host has issued it, and as a line of the assembler. -/
def Obligations.OverlappingRequestsRefused : Prop :=
  ∀ s : State, s.phase = .extract →
    (∀ chunk, exec (.push chunk) s = .refused .overlappingRequest) ∧ exec .reset s = .refused .overlappingRequest ∧
    (∀ chunk rest, s.requests = encode (.push chunk) :: rest → step s = .refused .overlappingRequest) ∧
    (∀ rest, s.requests = encode .reset :: rest → step s = .refused .overlappingRequest) ∧
    (∀ chunk, step (s.issue (encode (.push chunk))) = .refused .overlappingRequest) ∧
    step (s.issue (encode .reset)) = .refused .overlappingRequest ∧
    (∀ name e bs env, BytesExpr.eval 0x04#8 env e = .ok bs →
      runLine step (.op name (.push e)) { machine := s, bindings := env } = .refused .overlappingRequest) ∧
    (∀ name env, runLine step (.op name .reset) { machine := s, bindings := env } = .refused .overlappingRequest)

/-- With nothing requested, an idle block changes nothing: bytes that wait in RXBUF wait, no timeout drops them (R240;
that such a step stutters is the model's choice, log entry 3). -/
def Obligations.IdleBlockWaits : Prop :=
  ∀ s : State, s.phase = .idle → s.requests = [] → ∀ k, Host.Core.run core k s = .next s

/-- Every operation with a result in R170's range is available between operations, whatever happened before, in
particular after any error (R213, R231, R200): it completes, and the block is again between operations (R28). That an
operation, RESET included, keeps the pending requests is the model's choice (log entry 3). -/
def Obligations.EveryOperationAvailable : Prop :=
  ∀ (i : Instr) (s : State), WellFormed i = true → s.phase = .idle →
    ∃ t, exec i s = .next t ∧ t.phase = .idle ∧ t.requests = s.requests ∧ t.response ≠ none

/-! ### CRC -/

/-- CRC answers CRC16(data) and touches nothing else; over no bytes that is the initial value, reflected if
`CRC16_REFOUT`, XORed with `CRC16_XOROUT` (R102). CRC16 is R100's algorithm, spelled out: each byte, reflected if
`CRC16_REFIN`, is XORed into reg[15:8], and then eight times the register is shifted left by one and the polynomial
XORed in if bit 15 was set; bit i of a reflected value is bit n-1-i. -/
def Obligations.CrcAnswersChecksum : Prop :=
  (∀ (data : List Byte) (s : State),
    exec (.crc data) s = .next { s with response := some (.ok (.crc (crc16 Config.crc data))) }) ∧
  (∀ p : CrcParams, crc16 p [] = (if p.refout then reflect p.init else p.init) ^^^ p.xorout) ∧
  (∀ (p : CrcParams) (data : List Byte),
    let turn : Word16 → Word16 := fun reg => if reg.getLsbD 15 then (reg <<< 1) ^^^ p.poly else reg <<< 1
    let byte : Word16 → Byte → Word16 := fun reg b =>
      turn (turn (turn (turn (turn (turn (turn (turn
        (reg ^^^ ((if p.refin then reflect b else b).setWidth 16 <<< 8)))))))))
    let reg := data.foldl byte p.init
    crc16 p data = (if p.refout then reflect reg else reg) ^^^ p.xorout) ∧
  (∀ (v : Word16) (i : Nat), i < 16 → (reflect v).getLsbD i = v.getLsbD (15 - i)) ∧
  (∀ (v : Byte) (i : Nat), i < 8 → (reflect v).getLsbD i = v.getLsbD (7 - i))

/-- The table-driven CRC gives the value of the bit-serial one, for every parameter set and every input (R101). -/
def Obligations.TableCrcEqualsBitSerial : Prop :=
  ∀ (p : CrcParams) (data : List Byte), crc16Table p data = crc16 p data

/-- A single flipped bit changes the CRC, for every parameter set with a nonzero polynomial (R103). -/
def Obligations.CrcDetectsSingleBit : Prop :=
  ∀ (p : CrcParams), p.poly ≠ 0#16 → ∀ (d : List Byte) (i k : Nat), i < d.length → k < 8 →
    crc16 p (flipBit d i k) ≠ crc16 p d

/-! ### ENCODE -/

/-- A valid ENCODE completes with the wire frame: start marker, target, sender 0, length, payload, checksum of those
four big-endian, end marker, and touches nothing else (R110, R60, R115, R42). -/
def Obligations.EncodeBuildsWireFrame : Prop :=
  ∀ (t : Int) (payload : List Byte) (s : State), 1 ≤ t → t ≤ 127 → payload.length ≤ 255 →
    let body : List Byte := [BitVec.ofInt 8 t, 0x00#8, BitVec.ofNat 8 payload.length] ++ payload
    let c := crc16 Config.crc body
    exec (.encode t 0 payload) s = .next { s with response := some (.ok (.wire
      ([0x55#8] ++ body ++ [c.extractLsb' 8 8, c.extractLsb' 0 8] ++ [0xAA#8]))) }

/-- An ENCODE with a target outside 1..127, a sender other than 0, or more than 255 payload bytes ends with the error
of the first failing check in that order, with the value given, and touches nothing else (R111, R112, R114). -/
def Obligations.EncodeRejectsInOrder : Prop :=
  ∀ (t sd : Int) (payload : List Byte) (s : State),
    (¬ (1 ≤ t ∧ t ≤ 127) →
      exec (.encode t sd payload) s = .next { s with response := some (.error (.invalidAddress .target t)) }) ∧
    ((1 ≤ t ∧ t ≤ 127) → sd ≠ 0 →
      exec (.encode t sd payload) s = .next { s with response := some (.error (.invalidAddress .sender sd)) }) ∧
    ((1 ≤ t ∧ t ≤ 127) → sd = 0 → 255 < payload.length →
      exec (.encode t sd payload) s = .next { s with response := some (.error (.payloadTooLong payload.length)) })

/-- What ENCODE never produces (R71) and the length of what it does (R113, R61, R62): an ok result has a target in
1..127, sender 0 and at most 255 payload bytes, is len(payload) + 7 bytes long, 7 to 262, its length byte is
len(payload), and its payload stands unchanged at offset 4 (no stuffing, R66). -/
def Obligations.EncodeOutputShape : Prop :=
  ∀ (t sd : Int) (payload w : List Byte) (s u : State),
    exec (.encode t sd payload) s = .next u → u.response = some (.ok (.wire w)) →
      1 ≤ t ∧ t ≤ 127 ∧ sd = 0 ∧ payload.length ≤ 255 ∧
      w.length = payload.length + 7 ∧ 7 ≤ w.length ∧ w.length ≤ 262 ∧
      (w.getD 3 0#8).toNat = payload.length ∧ (w.drop 4).take payload.length = payload ∧
      (w.getD 1 0#8).toNat = t.toNat ∧ w.getD 2 0#8 = 0#8 ∧ w.getLast? = some 0xAA#8

/-- The checksum is big-endian on the wire: offsets 4+L and 5+L of an encoded frame hold bits 15..8 and 7..0 of the CRC
of offsets 1 to 3+L, and reading them back as hi * 256 + lo gives that CRC (R42, R67). -/
def Obligations.ChecksumIsBigEndian : Prop :=
  ∀ (t : Int) (payload w : List Byte) (s u : State),
    exec (.encode t 0 payload) s = .next u → u.response = some (.ok (.wire w)) →
      let c := crc16 Config.crc ((w.drop 1).take (3 + payload.length))
      w.getD (4 + payload.length) 0#8 = c.extractLsb' 8 8 ∧ w.getD (5 + payload.length) 0#8 = c.extractLsb' 0 8 ∧
      (w.getD (4 + payload.length) 0#8).toNat * 256 + (w.getD (5 + payload.length) 0#8).toNat = c.toNat

/-- ENCODE, VALIDATE and CRC read and write no state element: whatever the operands, there is one result, an `ok` or an
error, that the operation gives in every state, and the state is otherwise as before (R32, R128, R200). -/
def Obligations.CodecTouchesNoState : Prop :=
  ∀ i : Instr, ((∃ t sd p, i = .encode t sd p) ∨ (∃ c, i = .validate c) ∨ (∃ d, i = .crc d)) →
    ∃ r : Response, ∀ s : State, exec i s = .next { s with response := some r }

/-! ### VALIDATE -/

/-- The result of VALIDATE on every candidate, check by check in the order of R120 and R123: one clause per outcome, the
conditions excluding each other. It touches nothing else, no counter in particular (R121, R122). -/
def Obligations.ValidateDecidesInOrder : Prop :=
  ∀ (cand : List Byte) (s : State),
    let L := (cand.getD 3 0#8).toNat
    let tx := BitVec.ofNat 16 ((cand.getD (L + 4) 0#8).toNat * 256 + (cand.getD (L + 5) 0#8).toNat)
    let rc := crc16 Config.crc ((cand.drop 1).take (L + 3))
    let answers : Response → Prop := fun r => exec (.validate cand) s = .next { s with response := some r }
    (cand.head? ≠ some 0x55#8 → answers (.error (.noStartMarker cand.head?))) ∧
    (cand.head? = some 0x55#8 → cand.length < 7 → answers (.error (.tooShort cand.length))) ∧
    (cand.head? = some 0x55#8 → 7 ≤ cand.length → cand.length < L + 7 →
      answers (.error (.truncated (L + 7) cand.length))) ∧
    (cand.head? = some 0x55#8 → 7 ≤ cand.length → L + 7 ≤ cand.length → cand.getD (L + 6) 0#8 ≠ 0xAA#8 →
      answers (.error (.framingError (L + 6) (cand.getD (L + 6) 0#8)))) ∧
    (cand.head? = some 0x55#8 → 7 ≤ cand.length → L + 7 ≤ cand.length → cand.getD (L + 6) 0#8 = 0xAA#8 → tx ≠ rc →
      answers (.error (.checksumMismatch tx rc))) ∧
    (cand.head? = some 0x55#8 → 7 ≤ cand.length → L + 7 ≤ cand.length → cand.getD (L + 6) 0#8 = 0xAA#8 → tx = rc →
      answers (.ok (.record { target := cand.getD 1 0#8, sender := cand.getD 2 0#8, length := cand.getD 3 0#8
                              payload := (cand.drop 4).take L, checksum := tx })))

/-- VALIDATE accepts every frame with a right checksum, whatever its addresses (R126) and whatever follows it (R124),
and gives its fields back (R70). -/
def Obligations.ValidateAcceptsFrames : Prop :=
  ∀ (t sd : Byte) (payload rest : List Byte) (s : State), payload.length ≤ 255 →
    let c := crc16 Config.crc ([t, sd, BitVec.ofNat 8 payload.length] ++ payload)
    exec (.validate ([0x55#8, t, sd, BitVec.ofNat 8 payload.length] ++ payload ++ [hi8 c, lo8 c, 0xAA#8] ++ rest)) s =
      .next { s with response := some (.ok (.record
        { target := t, sender := sd, length := BitVec.ofNat 8 payload.length, payload := payload, checksum := c })) }

/-- Bytes after offset L+6 neither cause an error nor appear in the result (R124): VALIDATE gives what it gives of the
first L+7 bytes, L being the byte at offset 3. -/
def Obligations.ValidateIgnoresTrailingBytes : Prop :=
  ∀ (p : CrcParams) (cand : List Byte),
    validateFrame p cand = validateFrame p (cand.take ((cand.getD 3 0#8).toNat + 7))

/-- What VALIDATE accepts begins with the wire form of the record it gives, whose length field is the length of its
payload and whose checksum is the CRC of its interior (R70, R26, R120). -/
def Obligations.ValidateIsSound : Prop :=
  ∀ (p : CrcParams) (cand : List Byte) (f : FrameRecord), validateFrame p cand = .ok f →
    (∃ rest, cand = [0x55#8, f.target, f.sender, f.length] ++ f.payload ++
      [hi8 f.checksum, lo8 f.checksum, 0xAA#8] ++ rest) ∧
    f.length.toNat = f.payload.length ∧
    f.checksum = crc16 p ([f.target, f.sender, f.length] ++ f.payload)

/-- The round trip: VALIDATE of what ENCODE gives is the record of what was encoded, for every target 1..127 and every
payload of at most 255 bytes, under every CRC parameter set (R127). -/
def Obligations.CodecRoundTrip : Prop :=
  ∀ (p : CrcParams) (t : Int) (payload : List Byte), 1 ≤ t → t ≤ 127 → payload.length ≤ 255 →
    ∃ w, encodeFrame p t 0 payload = .ok w ∧
      validateFrame p w = .ok
        { target := BitVec.ofInt 8 t, sender := 0#8, length := BitVec.ofNat 8 payload.length, payload := payload
          checksum := crc16 p ([BitVec.ofInt 8 t, 0#8, BitVec.ofNat 8 payload.length] ++ payload) }

/-- One flipped bit of an encoded frame, offset by offset (R125), for every CRC parameter set with a nonzero
polynomial. In the last case, a shortened length whose end marker happens to be right, the CRC is recomputed over the
flipped bytes, as R120 says; R125 writes the unflipped ones there, and the two CRCs always differ (log entry 11). -/
def Obligations.SingleBitFlipOutcome : Prop :=
  ∀ (p : CrcParams), p.poly ≠ 0#16 → ∀ (t : Int) (payload w : List Byte), encodeFrame p t 0 payload = .ok w →
    ∀ (o k : Nat), o < w.length → k < 8 →
      let L := payload.length
      let w' := flipBit w o k
      let L' := (w'.getD 3 0#8).toNat
      ((o = 1 ∨ o = 2 ∨ (4 ≤ o ∧ o ≤ 5 + L)) →
        ∃ tx rc, tx ≠ rc ∧ validateFrame p w' = .error (.checksumMismatch tx rc)) ∧
      (o = 0 → validateFrame p w' = .error (.noStartMarker w'.head?)) ∧
      (o = 6 + L → validateFrame p w' = .error (.framingError (6 + L) (w'.getD (6 + L) 0#8))) ∧
      (o = 3 → L' ≠ L ∧
        (L < L' → validateFrame p w' = .error (.truncated (L' + 7) w.length)) ∧
        (L' < L → w.getD (L' + 6) 0#8 ≠ 0xAA#8 →
          validateFrame p w' = .error (.framingError (L' + 6) (w.getD (L' + 6) 0#8))) ∧
        (L' < L → w.getD (L' + 6) 0#8 = 0xAA#8 →
          let tx := u16 (w.getD (L' + 4) 0#8) (w.getD (L' + 5) 0#8)
          let rc := crc16 p ((w'.drop 1).take (L' + 3))
          (tx ≠ rc → validateFrame p w' = .error (.checksumMismatch tx rc)) ∧
          (tx = rc → ∃ f, validateFrame p w' = .ok f ∧ f.payload ≠ payload) ∧
          crc16 p ((w.drop 1).take (L' + 3)) ≠ rc))

/-! ### Errors -/

/-- The codes of the error results (R200). -/
def Obligations.ErrorCodes : Prop :=
  (∀ f v, (ErrorResult.invalidAddress f v).code = 0x01#8) ∧ (∀ n, (ErrorResult.payloadTooLong n).code = 0x02#8) ∧
  (∀ b, (ErrorResult.noStartMarker b).code = 0x03#8) ∧ (∀ n, (ErrorResult.tooShort n).code = 0x04#8) ∧
  (∀ n m, (ErrorResult.truncated n m).code = 0x05#8) ∧ (∀ o v, (ErrorResult.framingError o v).code = 0x06#8) ∧
  (∀ a b, (ErrorResult.checksumMismatch a b).code = 0x07#8)

/-- Who raises which error (R201 to R205): InvalidAddress and PayloadTooLong only ENCODE, the other five only VALIDATE,
and no other operation ends with an error; PUSH in particular never does (R138). An error writes no state element
(R200, R210). -/
def Obligations.ErrorsOnlyFromTheirOperation : Prop :=
  ∀ (i : Instr) (s t : State) (e : ErrorResult), exec i s = .next t → t.response = some (.error e) →
    SameBlock s t ∧ t.requests = s.requests ∧
    ((e.code = 0x01#8 ∨ e.code = 0x02#8) → ∃ a b p, i = .encode a b p) ∧
    ((e.code = 0x03#8 ∨ e.code = 0x04#8 ∨ e.code = 0x05#8 ∨ e.code = 0x06#8 ∨ e.code = 0x07#8) → ∃ c, i = .validate c)

/-! ### The extraction step -/

/-- Step 1 discards leading bytes up to the first start marker and does nothing else: with noise in front, the step is
the step without the noise; with nothing but noise, it stops with an empty buffer (R132). -/
def Obligations.StepDiscardsLeadingNoise : Prop :=
  ∀ (p : CrcParams) (s : State) (noise rest : List Byte), (∀ b ∈ noise, b ≠ 0x55#8) →
    extractStepWith p { s with rxbuf := noise ++ 0x55#8 :: rest } =
      extractStepWith p { s with rxbuf := 0x55#8 :: rest } ∧
    extractStepWith p { s with rxbuf := noise } = (.stop, { s with rxbuf := [] })

/-- An incomplete candidate stops the step and nothing is discarded (R137). -/
def Obligations.IncompleteCandidateWaits : Prop :=
  ∀ (p : CrcParams) (s : State), s.rxbuf.head? = some 0x55#8 →
    (s.rxbuf.length < 7 ∨ s.rxbuf.length < (s.rxbuf.getD 3 0#8).toNat + 7) → extractStepWith p s = (.stop, s)

/-- A framing error discards exactly the leading start marker; no counter changes and nothing is emitted (R136). -/
def Obligations.FramingErrorSlidesOneByte : Prop :=
  ∀ (p : CrcParams) (s : State) (rest : List Byte), s.rxbuf = 0x55#8 :: rest → 7 ≤ s.rxbuf.length →
    (s.rxbuf.getD 3 0#8).toNat + 7 ≤ s.rxbuf.length →
    s.rxbuf.getD ((s.rxbuf.getD 3 0#8).toNat + 6) 0#8 ≠ 0xAA#8 →
      extractStepWith p s = (.again, { s with rxbuf := rest })

/-- A checksum error discards the entire candidate, counts one in CRC_FAIL, and emits nothing (R133). -/
def Obligations.ChecksumErrorDiscardsCandidate : Prop :=
  ∀ (p : CrcParams) (s : State) (t sd : Byte) (payload rest : List Byte) (c : Word16), payload.length ≤ 255 →
    c ≠ crc16 p ([t, sd, BitVec.ofNat 8 payload.length] ++ payload) →
    s.rxbuf = [0x55#8, t, sd, BitVec.ofNat 8 payload.length] ++ payload ++ [hi8 c, lo8 c, 0xAA#8] ++ rest →
      extractStepWith p s = (.again, { s with rxbuf := rest, crcFail := s.crcFail + 1 })

/-- A valid frame is removed, counted and emitted (R134), and the record has the fields of R26. -/
def Obligations.ValidFrameIsEmitted : Prop :=
  ∀ (p : CrcParams) (s : State) (t sd : Byte) (payload rest : List Byte), payload.length ≤ 255 →
    let c := crc16 p ([t, sd, BitVec.ofNat 8 payload.length] ++ payload)
    s.rxbuf = [0x55#8, t, sd, BitVec.ofNat 8 payload.length] ++ payload ++ [hi8 c, lo8 c, 0xAA#8] ++ rest →
      extractStepWith p s = (.again, { s with
        rxbuf := rest
        framesRx := s.framesRx + 1
        frameOut := s.frameOut ++
          [{ target := t, sender := sd, length := BitVec.ofNat 8 payload.length, payload := payload, checksum := c }] })

/-- The judgement of step 4 is VALIDATE: when the buffer begins with a whole candidate, VALIDATE of the candidate gives
FramingError, ChecksumMismatch or ok, and the step slides, discards or emits that very record accordingly (R135). -/
def Obligations.StepFourIsValidate : Prop :=
  ∀ (p : CrcParams) (s : State), s.rxbuf.head? = some 0x55#8 → 7 ≤ s.rxbuf.length →
    (s.rxbuf.getD 3 0#8).toNat + 7 ≤ s.rxbuf.length →
    let n := (s.rxbuf.getD 3 0#8).toNat + 7
    (∃ o v, validateFrame p (s.rxbuf.take n) = .error (.framingError o v) ∧
      extractStepWith p s = (.again, { s with rxbuf := s.rxbuf.drop 1 })) ∨
    (∃ tx rc, validateFrame p (s.rxbuf.take n) = .error (.checksumMismatch tx rc) ∧
      extractStepWith p s = (.again, { s with rxbuf := s.rxbuf.drop n, crcFail := s.crcFail + 1 })) ∨
    (∃ f, validateFrame p (s.rxbuf.take n) = .ok f ∧
      extractStepWith p s =
        (.again, { s with rxbuf := s.rxbuf.drop n, framesRx := s.framesRx + 1, frameOut := s.frameOut ++ [f] }))

/-! ### PUSH -/

/-- PUSH completes with ok() for every chunk and every buffer (R138, R130): it leaves PHASE IDLE and the pending requests
as they are, adds the chunk's length to BYTES_RX modulo 2^32, only adds to FRAME_OUT, and adds the number of records
added to FRAMES_RX modulo 2^32 (R22, R23, R25). -/
def Obligations.PushCompletes : Prop :=
  ∀ (chunk : List Byte) (s : State), s.phase = .idle →
    ∃ t fs, exec (.push chunk) s = .next t ∧ t.response = some (.ok .unit) ∧ t.phase = .idle ∧
      t.requests = s.requests ∧ t.bytesRx.toNat = (s.bytesRx.toNat + chunk.length) % 2 ^ 32 ∧
      t.frameOut = s.frameOut ++ fs ∧ t.framesRx.toNat = (s.framesRx.toNat + fs.length) % 2 ^ 32

/-- PUSH of a whole frame onto an empty buffer emits its record and leaves the buffer empty (R130's example, for every
frame, whatever its addresses). -/
def Obligations.PushOfFrameEmitsIt : Prop :=
  ∀ (t sd : Byte) (payload : List Byte) (s : State), s.phase = .idle → s.rxbuf = [] → payload.length ≤ 255 →
    let c := crc16 Config.crc ([t, sd, BitVec.ofNat 8 payload.length] ++ payload)
    exec (.push ([0x55#8, t, sd, BitVec.ofNat 8 payload.length] ++ payload ++ [hi8 c, lo8 c, 0xAA#8])) s =
      .next { s with
        bytesRx := s.bytesRx + BitVec.ofNat 32 (payload.length + 7)
        framesRx := s.framesRx + 1
        frameOut := s.frameOut ++
          [{ target := t, sender := sd, length := BitVec.ofNat 8 payload.length, payload := payload, checksum := c }]
        response := some (.ok .unit) }

/-- RXBUF changes in only three ways: PUSH appends its chunk and removes bytes from the front, RESET empties it, no
other operation changes it (R21). -/
def Obligations.RxbufChangesThreeWays : Prop :=
  ∀ (i : Instr) (s t : State), exec i s = .next t →
    (∃ chunk n, i = .push chunk ∧ n ≤ (s.rxbuf ++ chunk).length ∧ t.rxbuf = (s.rxbuf ++ chunk).drop n) ∨
    (i = .reset ∧ t.rxbuf = []) ∨
    ((∀ chunk, i ≠ .push chunk) ∧ i ≠ .reset ∧ t.rxbuf = s.rxbuf)

/-- FRAME_OUT only grows at its end, and only by PUSH (R25): no step removes, reorders or retracts a record. -/
def Obligations.FrameOutAppendOnly : Prop :=
  ∀ s t : State, step s = .next t → ∃ fs, t.frameOut = s.frameOut ++ fs ∧
    (s.phase = .idle → (∀ r rest chunk, s.requests = r :: rest → decode r ≠ .ok (.push chunk)) → fs = [])

/-- No operation reads a counter to decide what it does: two states that agree on everything but the counters give the
same outcome up to the counters (R24), but for the value READ_STATUS answers. -/
def Obligations.CountersAreNotBehavioral : Prop :=
  ∀ (i : Instr) (s s' t : State), SameButCounters s s' → exec i s = .next t →
    ∃ t', exec i s' = .next t' ∧ SameButCounters t t' ∧ ((∀ n, i ≠ .readStatus n) → t'.response = t.response)

/-- Each extraction step stops or removes at least one byte, so the loop on a buffer of n bytes returns STOP within
n + 1 steps (R140): PUSH's bound is never used up, and a larger bound changes nothing. -/
def Obligations.LoopStopsWithinBound : Prop :=
  ∀ (p : CrcParams) (s : State) (m : Nat), s.rxbuf.length + 1 ≤ m →
    ((extractStepWith p s).1 = .stop ∨ (extractStepWith p s).2.rxbuf.length < s.rxbuf.length) ∧
    (extractLoopWith p m s).1 = .stop ∧ extractLoopWith p m s = extractLoopWith p (s.rxbuf.length + 1) s

/-- After every PUSH and after RESET the buffer is quiescent, and an extraction step on a quiescent buffer returns STOP
and changes nothing (R141). -/
def Obligations.QuiescentAfterPushAndReset : Prop :=
  (∀ (chunk : List Byte) (s t : State), exec (.push chunk) s = .next t → Quiescent t.rxbuf) ∧
  (∀ s t : State, exec .reset s = .next t → Quiescent t.rxbuf) ∧
  (∀ (p : CrcParams) (s : State), Quiescent s.rxbuf → extractStepWith p s = (.stop, s))

/-- After every PUSH at most 261 bytes remain (R142), so before the extraction of the next one the buffer holds at most
261 more than the chunk: a capacity of 262 is enough for single bytes, 261 + k for chunks of k (R150). -/
def Obligations.ResidualBound : Prop :=
  ∀ (a b : List Byte) (s t : State), exec (.push a) s = .next t →
    t.rxbuf.length ≤ 261 ∧ (t.rxbuf ++ b).length ≤ 261 + b.length

/-- Chunking invariance: PUSH(a) and then PUSH(b) leaves the state that PUSH(a ++ b) leaves (R143). -/
def Obligations.ChunkingInvariance : Prop :=
  ∀ (a b : List Byte) (s t : State), exec (.push a) s = .next t → exec (.push b) t = exec (.push (a ++ b)) s

/-- Byte-serial equivalence: PUSH of a chunk is the PUSH of its bytes one by one (R144). -/
def Obligations.ByteSerialEquivalence : Prop :=
  ∀ (chunk : List Byte) (s : State), chunk ≠ [] → s.phase = .idle →
    pushAll (chunk.map fun b => [b]) s = exec (.push chunk) s

/-- PUSH([]) between operations changes no state element and emits nothing (R146). -/
def Obligations.EmptyPushChangesNothing : Prop :=
  ∀ s : State, s.phase = .idle → Quiescent s.rxbuf →
    exec (.push []) s = .next { s with response := some (.ok .unit) }

/-- Stream soundness (R148), with the order of R49 and R50: the received bytes fall, in order and without overlap, into
noise, start markers slid off a whole candidate with a wrong end marker, corrupt candidates, emitted frames, and what is
left in RXBUF; they fall so in one way only; the records emitted are those of the frames in that order, each once, and
CRC_FAIL and FRAMES_RX count the corrupt candidates and the frames. -/
def Obligations.StreamSoundness : Prop :=
  ∀ (chunk : List Byte) (s t : State), exec (.push chunk) s = .next t →
    ∃ pieces : List Piece, Divides Config.crc (s.rxbuf ++ chunk) pieces t.rxbuf ∧
      (∀ pieces' residual', Divides Config.crc (s.rxbuf ++ chunk) pieces' residual' →
        pieces' = pieces ∧ residual' = t.rxbuf) ∧
      s.rxbuf ++ chunk = pieces.flatMap Piece.bytes ++ t.rxbuf ∧
      t.frameOut = s.frameOut ++ pieces.filterMap Piece.emits ∧
      t.framesRx.toNat = (s.framesRx.toNat + (pieces.filterMap Piece.emits).length) % 2 ^ 32 ∧
      t.crcFail.toNat = (s.crcFail.toNat + pieces.countP Piece.isCorrupt) % 2 ^ 32

/-- After RESET the block depends only on the concatenated stream (R145): however the stream is cut into chunks, the
pushes leave the same state; and what they leave is R145's DECODE of the stream, which is how the stream falls into
pieces, in one way only: the records emitted are those of its frames, RXBUF is its residual, and BYTES_RX, FRAMES_RX and
CRC_FAIL are, modulo 2^32, its length, the number of its frames and the number of its corrupt candidates. -/
def Obligations.StreamFunction : Prop :=
  ∀ (cs ds : List (List Byte)) (s t : State), exec .reset s = .next t → cs.flatten = ds.flatten →
    pushAll cs t = pushAll ds t ∧
    ∃ (u : State) (pieces : List Piece), pushAll cs t = .next u ∧ Divides Config.crc cs.flatten pieces u.rxbuf ∧
      (∀ pieces' residual', Divides Config.crc cs.flatten pieces' residual' →
        pieces' = pieces ∧ residual' = u.rxbuf) ∧
      u.frameOut = s.frameOut ++ pieces.filterMap Piece.emits ∧
      u.bytesRx.toNat = cs.flatten.length % 2 ^ 32 ∧
      u.framesRx.toNat = (pieces.filterMap Piece.emits).length % 2 ^ 32 ∧
      u.crcFail.toNat = pieces.countP Piece.isCorrupt % 2 ^ 32

/-- Loss across RESET (R173): what is emitted after a RESET, and all that the block then holds, does not depend on
anything before it. -/
def Obligations.NothingCrossesReset : Prop :=
  ∀ (cs : List (List Byte)) (s s' t t' : State), exec .reset s = .next t → exec .reset s' = .next t' →
    ∃ u u' fs, pushAll cs t = .next u ∧ pushAll cs t' = .next u' ∧
      u.frameOut = s.frameOut ++ fs ∧ u'.frameOut = s'.frameOut ++ fs ∧
      u.rxbuf = u'.rxbuf ∧ u.framesRx = u'.framesRx ∧ u.bytesRx = u'.bytesRx ∧ u.crcFail = u'.crcFail

/-- The small-step reading (R131): a PUSH is its append, and then extraction transitions, at most n + 1 on a buffer of n
bytes, until PHASE is IDLE again; the state they reach is the one the atomic PUSH gives. -/
def Obligations.PushIsItsExtractionSteps : Prop :=
  ∀ (chunk : List Byte) (s t : State), s.requests = [] → exec (.push chunk) s = .next t →
    ∃ k, k ≤ s.rxbuf.length + chunk.length + 1 ∧ Host.Core.run core k (beginPush chunk s) = .next t ∧
      ∀ j, j < k → ∃ u, Host.Core.run core j (beginPush chunk s) = .next u ∧ u.phase = .extract

/-! ### Invariants -/

/-- The invariant holds at reset (R31, R141). -/
def Obligations.InvariantAtReset : Prop := Inv State.reset

/-- Every step keeps the invariant: PHASE is IDLE between operations (R28), the buffer is quiescent (R141), and every
emitted record is one that VALIDATE gives back from its wire bytes (R147). -/
def Obligations.StepKeepsInvariant : Prop := ∀ s t : State, Inv s → step s = .next t → Inv t

/-! ### Hazards -/

/-- Resynchronisation over a stray start marker (R149). -/
def Obligations.StrayMarkerResync : Prop :=
  ∀ (g f : List Byte) (r : FrameRecord) (s : State), s.phase = .idle → s.rxbuf = [] → (∀ b ∈ g, b ≠ 0x55#8) →
    validateFrame Config.crc f = .ok r → f.length = r.payload.length + 7 →
    (f.getD 2 0#8).toNat + 7 ≤ f.length + 1 → f.getD ((f.getD 2 0#8).toNat + 5) 0#8 ≠ 0xAA#8 →
    ∃ t, exec (.push (g ++ [0x55#8] ++ f)) s = .next t ∧ t.frameOut = s.frameOut ++ [r] ∧ t.rxbuf = [] ∧
      t.crcFail = s.crcFail ∧ t.framesRx = s.framesRx + 1

/-- Stall behind a spurious start marker (R241): while the candidate that begins the buffer is incomplete, whatever is
pushed is held and nothing is emitted. -/
def Obligations.StallBehindSpuriousMarker : Prop :=
  ∀ (chunk : List Byte) (s : State), s.phase = .idle → s.rxbuf.head? = some 0x55#8 → 4 ≤ s.rxbuf.length →
    (s.rxbuf ++ chunk).length < (s.rxbuf.getD 3 0#8).toNat + 7 →
    exec (.push chunk) s = .next { s with
      rxbuf := s.rxbuf ++ chunk, bytesRx := s.bytesRx + BitVec.ofNat 32 chunk.length, response := some (.ok .unit) }

/-- R242's example of swallowing behind a spurious start marker, its eleven bytes, for every CRC parameter set under which
the two checksums differ: the genuine frame is lost with the spurious candidate. PUSH is this under Config's parameters. -/
def Obligations.SpuriousCandidateSwallowsFrame : Prop :=
  ∀ (p : CrcParams) (s : State), s.phase = .idle → s.rxbuf = [] →
    crc16 p [0x01#8, 0x00#8, 0x04#8, 0x55#8, 0x02#8, 0x00#8, 0x00#8] ≠ crc16 p [0x02#8, 0x00#8, 0x00#8] →
    let c := crc16 p [0x02#8, 0x00#8, 0x00#8]
    let chunk : List Byte := [0x55#8, 0x01#8, 0x00#8, 0x04#8] ++
      [0x55#8, 0x02#8, 0x00#8, 0x00#8, hi8 c, lo8 c, 0xAA#8]
    pushWith p chunk s =
      .next { s with crcFail := s.crcFail + 1, bytesRx := s.bytesRx + 11, response := some (.ok .unit) }

/-! ### READ_STATUS -/

/-- READ_STATUS 0, 1 and 2 answer FRAMES_RX, BYTES_RX and CRC_FAIL and change nothing, the counter in particular
(R170); an index of 3 or more is refused, by exec and by the step that takes the request (R171). -/
def Obligations.ReadStatusAnswersCounter : Prop :=
  ∀ s : State,
    exec (.readStatus 0) s = .next { s with response := some (.ok (.count s.framesRx)) } ∧
    exec (.readStatus 1) s = .next { s with response := some (.ok (.count s.bytesRx)) } ∧
    exec (.readStatus 2) s = .next { s with response := some (.ok (.count s.crcFail)) } ∧
    ∀ n : Nat, 3 ≤ n → exec (.readStatus n) s = .refused (.reservedStatusIndex n) ∧
      ∀ rest, s.phase = .idle → s.requests = { op := 0x05#8, operands := [.int (n : Int)] } :: rest →
        step s = .refused (.reservedStatusIndex n)

/-! ### Instances and the assembler forms -/

/-- An operation on one instance changes no other, and no instance's parameters (R54, R33); on its own instance it is
that instance's step. -/
def Obligations.InstancesAreIndependent : Prop :=
  ∀ (k : Nat) (sys sys' : List Instance), stepInstance k sys = .next sys' →
    sys'.length = sys.length ∧ (∀ j, j ≠ k → sys'[j]? = sys[j]?) ∧
    (∀ x, sys[k]? = some x → ∃ y, sys'[k]? = some y ∧ y.params = x.params ∧ stepWith x.params x.state = .next y.state)

/-- An operation line denotes one request, with the op code of R75 and the operands in the order written (R80); what the
forms of `<bytes>` denote (30_encoding.md section 3). -/
def Obligations.LineDenotesRequest : Prop :=
  ∀ (env : Bindings) (t sd : Int) (e e' : BytesExpr) (bs bs' : List Byte) (n : Nat),
    (∀ op, e.eval op env = .ok bs) → (∀ op, e'.eval op env = .ok bs') →
    (AsmOp.encode t sd e).request env = .ok { op := 0x01#8, operands := [.int t, .int sd, .ofBytes bs] } ∧
    (AsmOp.validate e).request env = .ok { op := 0x02#8, operands := [.ofBytes bs] } ∧
    (AsmOp.crc e).request env = .ok { op := 0x03#8, operands := [.ofBytes bs] } ∧
    (AsmOp.push e).request env = .ok { op := 0x04#8, operands := [.ofBytes bs] } ∧
    (AsmOp.readStatus (.index n)).request env = .ok { op := 0x05#8, operands := [.int (n : Int)] } ∧
    (AsmOp.readStatus .framesRx).request env = .ok { op := 0x05#8, operands := [.int 0] } ∧
    (AsmOp.readStatus .bytesRx).request env = .ok { op := 0x05#8, operands := [.int 1] } ∧
    (AsmOp.readStatus .crcFail).request env = .ok { op := 0x05#8, operands := [.int 2] } ∧
    AsmOp.reset.request env = .ok { op := 0x06#8, operands := [] } ∧
    (∀ op, (BytesExpr.cat e e').eval op env = .ok (bs ++ bs')) ∧
    (∀ op b, (BytesExpr.rep b n).eval op env = .ok (List.replicate n b)) ∧
    (∀ op name, Bindings.find name env = some (.wire bs) → (BytesExpr.var name).eval op env = .ok bs)

/-- What a name is bound to after an operation line (R80): the `ok` result; nothing, if the operation raised an error;
the other names are as before; and a later use of an unbound name is refused. That an error also removes a binding an
earlier line had made of the name is the model's reading of R80 (log entry 8). -/
def Obligations.LinesBindResults : Prop :=
  ∀ (name : String) (o : AsmOp) (w v : Session), runLine step (.op (some name) o) w = .next v →
    (∀ x, v.machine.response = some (.ok x) → Bindings.find name v.bindings = some x) ∧
    (∀ e, v.machine.response = some (.error e) → Bindings.find name v.bindings = none ∧
      ∀ b, runLine step (.op b (.push (.var name))) v = .refused (.unboundName name)) ∧
    (∀ other, other ≠ name → Bindings.find other v.bindings = Bindings.find other w.bindings)

/-- ENCODEQ is the ENCODE with sender 0 and, as payload, the tag's bytes and a question mark, 0x3F (R81): the request it
denotes, and what its line does. -/
def Obligations.EncodeqExpands : Prop :=
  ∀ (t : Int) (tag : List Char) (bs : List Byte) (env : Bindings), asciiBytes tag = some bs →
    (AsmOp.encodeq t tag).request env = .ok { op := 0x01#8, operands := [.int t, .int 0, .ofBytes (bs ++ [0x3F#8])] } ∧
    ∀ (b : Option String) (w : Session),
      runLine step (.op b (.encodeq t tag)) w = runLine step (.op b (.encode t 0 (.hex (bs ++ [0x3F#8])))) w

/-- LOOPBACK is its two lines when the ENCODE succeeds; when the ENCODE raises an error the PUSH is not performed and the
block is as before (R82). That `$w` is then unbound, even if it was bound before, is the model's reading (log
entry 8). -/
def Obligations.LoopbackExpands : Prop :=
  ∀ (t : Int) (p : BytesExpr) (bs : List Byte) (w : Session), w.machine.phase = .idle →
    BytesExpr.eval 0x01#8 w.bindings p = .ok bs →
    ((1 ≤ t ∧ t ≤ 127 ∧ bs.length ≤ 255) →
      runLine step (.loopback t p) w =
        runLines step [.op (some "w") (.encode t 0 p), .op none (.push (.var "w"))] w) ∧
    (¬ (1 ≤ t ∧ t ≤ 127 ∧ bs.length ≤ 255) →
      ∃ v e, runLine step (.loopback t p) w = .next v ∧ v.machine = { w.machine with response := some (.error e) } ∧
        Bindings.find "w" v.bindings = none)
end

