-- ==== Sys2Proof/Laws/Bytes.lean ====
section
/-! SUPPORT. The small laws of the byte-sequence notation: offsets into an append, the big-endian pair and its halves,
reflection and exclusive-or. -/

namespace Sys2Proof.Machine

@[simp] theorem byteAt_cons_zero (b : Byte) (s : List Byte) : byteAt (b :: s) 0 = b := rfl

@[simp] theorem byteAt_cons_succ (b : Byte) (s : List Byte) (i : Nat) : byteAt (b :: s) (i + 1) = byteAt s i := rfl

theorem byteAt_append_left {s t : List Byte} {i : Nat} (h : i < s.length) : byteAt (s ++ t) i = byteAt s i := by
  simp [byteAt, List.getD_eq_getElem?_getD, List.getElem?_append_left h]

theorem byteAt_append_right {s t : List Byte} {i : Nat} (h : s.length ≤ i) :
    byteAt (s ++ t) i = byteAt t (i - s.length) := by
  simp [byteAt, List.getD_eq_getElem?_getD, List.getElem?_append_right h]

theorem byteAt_append_add (s t : List Byte) (i : Nat) : byteAt (s ++ t) (s.length + i) = byteAt t i := by
  rw [byteAt_append_right (by omega)]
  congr 1
  omega

theorem byteAt_take {s : List Byte} {n i : Nat} (h : i < n) : byteAt (s.take n) i = byteAt s i := by
  simp [byteAt, List.getD_eq_getElem?_getD, h]

theorem byteAt_eq_getElem {s : List Byte} {i : Nat} (h : i < s.length) : byteAt s i = s[i] := by
  simp [byteAt, List.getD_eq_getElem?_getD, h]

theorem slice_take {s : List Byte} {m i n : Nat} (h : i + n ≤ m) : slice (s.take m) i n = slice s i n := by
  unfold slice
  rw [List.drop_take, List.take_take]
  congr 1
  omega

theorem slice_append_left {s t : List Byte} {i n : Nat} (h : i + n ≤ s.length) : slice (s ++ t) i n = slice s i n := by
  unfold slice
  rw [List.drop_append_of_le_length (by omega), List.take_append_of_le_length (by simp; omega)]

theorem slice_length {s : List Byte} {i n : Nat} (h : i + n ≤ s.length) : (slice s i n).length = n := by
  simp [slice]
  omega

@[simp] theorem u16_hi8_lo8 (v : Word16) : u16 (hi8 v) (lo8 v) = v := by
  unfold u16 hi8 lo8
  apply BitVec.eq_of_getLsbD_eq
  intro i h
  rw [BitVec.getLsbD_append]
  by_cases hi : i < 8
  · simp [hi]
  · simp only [hi, decide_false, BitVec.getLsbD_extractLsb']
    simp [show 8 + (i - 8) = i by omega, show i - 8 < 8 by omega]

@[simp] theorem hi8_u16 (a b : Byte) : hi8 (u16 a b) = a := by
  unfold u16 hi8
  apply BitVec.eq_of_getLsbD_eq
  intro i h
  simp only [BitVec.getLsbD_extractLsb', BitVec.getLsbD_append, h]
  simp

@[simp] theorem lo8_u16 (a b : Byte) : lo8 (u16 a b) = b := by
  unfold u16 lo8
  apply BitVec.eq_of_getLsbD_eq
  intro i h
  simp only [BitVec.getLsbD_extractLsb', BitVec.getLsbD_append, h]
  simp [h]

/-- `u16(hi, lo)` = hi * 256 + lo (00_scope.md section 6). -/
theorem u16_toNat (a b : Byte) : (u16 a b).toNat = a.toNat * 256 + b.toNat := by
  unfold u16
  rw [BitVec.toNat_append, ← Nat.shiftLeft_add_eq_or_of_lt b.isLt, Nat.shiftLeft_eq]

theorem u16_inj {a b a' b' : Byte} : u16 a b = u16 a' b' ↔ a = a' ∧ b = b' := by
  constructor
  · intro h
    exact ⟨by simpa using congrArg hi8 h, by simpa using congrArg lo8 h⟩
  · rintro ⟨rfl, rfl⟩
    rfl

/-- Bit i of `reflect_n(v)` is bit (n-1-i) of v (40_codec.md R100). -/
theorem reflect_bit {n : Nat} (v : BitVec n) (i : Nat) (h : i < n) :
    (reflect v).getLsbD i = v.getLsbD (n - 1 - i) := by
  unfold reflect
  rw [BitVec.getLsbD_reverse, BitVec.getMsbD_eq_getLsbD]
  simp [h]

theorem reflect_xor {n : Nat} (a b : BitVec n) : reflect (a ^^^ b) = reflect a ^^^ reflect b := by
  apply BitVec.eq_of_getLsbD_eq
  intro i h
  simp [reflect_bit _ _ h]

@[simp] theorem reflect_reflect {n : Nat} (v : BitVec n) : reflect (reflect v) = v := by
  simp [reflect]

theorem reflect_injective {n : Nat} : Function.Injective (reflect (n := n)) :=
  Function.LeftInverse.injective reflect_reflect

end Sys2Proof.Machine
end

