-- ==== Sys2Proof/Laws/Crc.lean ====
section
/-! SUPPORT. The small laws of the CRC: the fold over an append, what is returned of a register determines the
register, and the shift register is linear. -/

namespace Sys2Proof.Machine

variable (p : CrcParams)

@[simp] theorem crcFold_nil (reg : Word16) : crcFold p reg [] = reg := rfl

@[simp] theorem crcFold_cons (reg : Word16) (b : Byte) (d : List Byte) :
    crcFold p reg (b :: d) = crcFold p (crcByte p reg b) d := rfl

theorem crcFold_append (reg : Word16) (a b : List Byte) : crcFold p reg (a ++ b) = crcFold p (crcFold p reg a) b := by
  simp [crcFold]

theorem crcOut_injective : Function.Injective (crcOut p) := by
  intro a b h
  have h : (if p.refout = true then reflect a else a) = if p.refout = true then reflect b else b := by
    simpa [crcOut] using congrArg (· ^^^ p.xorout) h
  split at h
  · exact reflect_injective h
  · exact h

@[simp] theorem crcShift_zero : crcShift p 0#16 = 0#16 := by simp [crcShift]

/-- The shift register is linear over exclusive-or, so CRC differences do not depend on the data. -/
theorem crcShift_linear (a b : Word16) : crcShift p (a ^^^ b) = crcShift p a ^^^ crcShift p b := by
  unfold crcShift
  simp only [BitVec.getLsbD_xor, BitVec.shiftLeft_xor_distrib]
  apply BitVec.eq_of_getLsbD_eq
  intro i _
  cases a.getLsbD 15 <;> cases b.getLsbD 15 <;> simp <;> grind

theorem crcShift_iterate_linear (n : Nat) (a b : Word16) :
    (crcShift p)^[n] (a ^^^ b) = (crcShift p)^[n] a ^^^ (crcShift p)^[n] b := by
  induction n generalizing a b with
  | zero => rfl
  | succ n ih => simp only [Function.iterate_succ, Function.comp_apply, crcShift_linear, ih]

end Sys2Proof.Machine
end

