-- ==== Sys2Proof/Laws/State.lean ====
section
/-! SUPPORT. What each named update of the state leaves in each field: one lemma per field per update, so that no later
proof unfolds a record update. -/

namespace Sys2Proof.Machine

variable (s : State)

@[simp] theorem State.appendRx_rxbuf (c : List Byte) : (s.appendRx c).rxbuf = s.rxbuf ++ c := rfl
@[simp] theorem State.appendRx_framesRx (c : List Byte) : (s.appendRx c).framesRx = s.framesRx := rfl
@[simp] theorem State.appendRx_bytesRx (c : List Byte) : (s.appendRx c).bytesRx = s.bytesRx := rfl
@[simp] theorem State.appendRx_crcFail (c : List Byte) : (s.appendRx c).crcFail = s.crcFail := rfl
@[simp] theorem State.appendRx_frameOut (c : List Byte) : (s.appendRx c).frameOut = s.frameOut := rfl
@[simp] theorem State.appendRx_phase (c : List Byte) : (s.appendRx c).phase = s.phase := rfl
@[simp] theorem State.appendRx_requests (c : List Byte) : (s.appendRx c).requests = s.requests := rfl
@[simp] theorem State.appendRx_response (c : List Byte) : (s.appendRx c).response = s.response := rfl

@[simp] theorem State.dropRx_rxbuf (n : Nat) : (s.dropRx n).rxbuf = s.rxbuf.drop n := rfl
@[simp] theorem State.dropRx_framesRx (n : Nat) : (s.dropRx n).framesRx = s.framesRx := rfl
@[simp] theorem State.dropRx_bytesRx (n : Nat) : (s.dropRx n).bytesRx = s.bytesRx := rfl
@[simp] theorem State.dropRx_crcFail (n : Nat) : (s.dropRx n).crcFail = s.crcFail := rfl
@[simp] theorem State.dropRx_frameOut (n : Nat) : (s.dropRx n).frameOut = s.frameOut := rfl
@[simp] theorem State.dropRx_phase (n : Nat) : (s.dropRx n).phase = s.phase := rfl
@[simp] theorem State.dropRx_requests (n : Nat) : (s.dropRx n).requests = s.requests := rfl
@[simp] theorem State.dropRx_response (n : Nat) : (s.dropRx n).response = s.response := rfl

@[simp] theorem State.countBytes_rxbuf (n : Nat) : (s.countBytes n).rxbuf = s.rxbuf := rfl
@[simp] theorem State.countBytes_framesRx (n : Nat) : (s.countBytes n).framesRx = s.framesRx := rfl
@[simp] theorem State.countBytes_bytesRx (n : Nat) : (s.countBytes n).bytesRx = counterAdd s.bytesRx n := rfl
@[simp] theorem State.countBytes_crcFail (n : Nat) : (s.countBytes n).crcFail = s.crcFail := rfl
@[simp] theorem State.countBytes_frameOut (n : Nat) : (s.countBytes n).frameOut = s.frameOut := rfl
@[simp] theorem State.countBytes_phase (n : Nat) : (s.countBytes n).phase = s.phase := rfl
@[simp] theorem State.countBytes_requests (n : Nat) : (s.countBytes n).requests = s.requests := rfl
@[simp] theorem State.countBytes_response (n : Nat) : (s.countBytes n).response = s.response := rfl

@[simp] theorem State.countFrame_rxbuf : (s.countFrame).rxbuf = s.rxbuf := rfl
@[simp] theorem State.countFrame_framesRx : (s.countFrame).framesRx = counterAdd s.framesRx 1 := rfl
@[simp] theorem State.countFrame_bytesRx : (s.countFrame).bytesRx = s.bytesRx := rfl
@[simp] theorem State.countFrame_crcFail : (s.countFrame).crcFail = s.crcFail := rfl
@[simp] theorem State.countFrame_frameOut : (s.countFrame).frameOut = s.frameOut := rfl
@[simp] theorem State.countFrame_phase : (s.countFrame).phase = s.phase := rfl
@[simp] theorem State.countFrame_requests : (s.countFrame).requests = s.requests := rfl
@[simp] theorem State.countFrame_response : (s.countFrame).response = s.response := rfl

@[simp] theorem State.countCrcFail_rxbuf : (s.countCrcFail).rxbuf = s.rxbuf := rfl
@[simp] theorem State.countCrcFail_framesRx : (s.countCrcFail).framesRx = s.framesRx := rfl
@[simp] theorem State.countCrcFail_bytesRx : (s.countCrcFail).bytesRx = s.bytesRx := rfl
@[simp] theorem State.countCrcFail_crcFail : (s.countCrcFail).crcFail = counterAdd s.crcFail 1 := rfl
@[simp] theorem State.countCrcFail_frameOut : (s.countCrcFail).frameOut = s.frameOut := rfl
@[simp] theorem State.countCrcFail_phase : (s.countCrcFail).phase = s.phase := rfl
@[simp] theorem State.countCrcFail_requests : (s.countCrcFail).requests = s.requests := rfl
@[simp] theorem State.countCrcFail_response : (s.countCrcFail).response = s.response := rfl

@[simp] theorem State.emit_rxbuf (f : FrameRecord) : (s.emit f).rxbuf = s.rxbuf := rfl
@[simp] theorem State.emit_framesRx (f : FrameRecord) : (s.emit f).framesRx = s.framesRx := rfl
@[simp] theorem State.emit_bytesRx (f : FrameRecord) : (s.emit f).bytesRx = s.bytesRx := rfl
@[simp] theorem State.emit_crcFail (f : FrameRecord) : (s.emit f).crcFail = s.crcFail := rfl
@[simp] theorem State.emit_frameOut (f : FrameRecord) : (s.emit f).frameOut = s.frameOut ++ [f] := rfl
@[simp] theorem State.emit_phase (f : FrameRecord) : (s.emit f).phase = s.phase := rfl
@[simp] theorem State.emit_requests (f : FrameRecord) : (s.emit f).requests = s.requests := rfl
@[simp] theorem State.emit_response (f : FrameRecord) : (s.emit f).response = s.response := rfl

@[simp] theorem State.setPhase_rxbuf (v : Phase) : (s.setPhase v).rxbuf = s.rxbuf := rfl
@[simp] theorem State.setPhase_framesRx (v : Phase) : (s.setPhase v).framesRx = s.framesRx := rfl
@[simp] theorem State.setPhase_bytesRx (v : Phase) : (s.setPhase v).bytesRx = s.bytesRx := rfl
@[simp] theorem State.setPhase_crcFail (v : Phase) : (s.setPhase v).crcFail = s.crcFail := rfl
@[simp] theorem State.setPhase_frameOut (v : Phase) : (s.setPhase v).frameOut = s.frameOut := rfl
@[simp] theorem State.setPhase_phase (v : Phase) : (s.setPhase v).phase = v := rfl
@[simp] theorem State.setPhase_requests (v : Phase) : (s.setPhase v).requests = s.requests := rfl
@[simp] theorem State.setPhase_response (v : Phase) : (s.setPhase v).response = s.response := rfl

@[simp] theorem State.clear_rxbuf : (s.clear).rxbuf = [] := rfl
@[simp] theorem State.clear_framesRx : (s.clear).framesRx = 0 := rfl
@[simp] theorem State.clear_bytesRx : (s.clear).bytesRx = 0 := rfl
@[simp] theorem State.clear_crcFail : (s.clear).crcFail = 0 := rfl
@[simp] theorem State.clear_frameOut : (s.clear).frameOut = s.frameOut := rfl
@[simp] theorem State.clear_phase : (s.clear).phase = .idle := rfl
@[simp] theorem State.clear_requests : (s.clear).requests = s.requests := rfl
@[simp] theorem State.clear_response : (s.clear).response = s.response := rfl

@[simp] theorem State.respond_rxbuf (v : Value) : (s.respond v).rxbuf = s.rxbuf := rfl
@[simp] theorem State.respond_framesRx (v : Value) : (s.respond v).framesRx = s.framesRx := rfl
@[simp] theorem State.respond_bytesRx (v : Value) : (s.respond v).bytesRx = s.bytesRx := rfl
@[simp] theorem State.respond_crcFail (v : Value) : (s.respond v).crcFail = s.crcFail := rfl
@[simp] theorem State.respond_frameOut (v : Value) : (s.respond v).frameOut = s.frameOut := rfl
@[simp] theorem State.respond_phase (v : Value) : (s.respond v).phase = s.phase := rfl
@[simp] theorem State.respond_requests (v : Value) : (s.respond v).requests = s.requests := rfl
@[simp] theorem State.respond_response (v : Value) : (s.respond v).response = some (.ok v) := rfl

@[simp] theorem State.raise_rxbuf (e : ErrorResult) : (s.raise e).rxbuf = s.rxbuf := rfl
@[simp] theorem State.raise_framesRx (e : ErrorResult) : (s.raise e).framesRx = s.framesRx := rfl
@[simp] theorem State.raise_bytesRx (e : ErrorResult) : (s.raise e).bytesRx = s.bytesRx := rfl
@[simp] theorem State.raise_crcFail (e : ErrorResult) : (s.raise e).crcFail = s.crcFail := rfl
@[simp] theorem State.raise_frameOut (e : ErrorResult) : (s.raise e).frameOut = s.frameOut := rfl
@[simp] theorem State.raise_phase (e : ErrorResult) : (s.raise e).phase = s.phase := rfl
@[simp] theorem State.raise_requests (e : ErrorResult) : (s.raise e).requests = s.requests := rfl
@[simp] theorem State.raise_response (e : ErrorResult) : (s.raise e).response = some (.error e) := rfl

@[simp] theorem State.takeRequest_rxbuf : (s.takeRequest).rxbuf = s.rxbuf := rfl
@[simp] theorem State.takeRequest_framesRx : (s.takeRequest).framesRx = s.framesRx := rfl
@[simp] theorem State.takeRequest_bytesRx : (s.takeRequest).bytesRx = s.bytesRx := rfl
@[simp] theorem State.takeRequest_crcFail : (s.takeRequest).crcFail = s.crcFail := rfl
@[simp] theorem State.takeRequest_frameOut : (s.takeRequest).frameOut = s.frameOut := rfl
@[simp] theorem State.takeRequest_phase : (s.takeRequest).phase = s.phase := rfl
@[simp] theorem State.takeRequest_requests : (s.takeRequest).requests = s.requests.tail := rfl
@[simp] theorem State.takeRequest_response : (s.takeRequest).response = s.response := rfl

@[simp] theorem State.issue_rxbuf (r : Request) : (s.issue r).rxbuf = s.rxbuf := rfl
@[simp] theorem State.issue_framesRx (r : Request) : (s.issue r).framesRx = s.framesRx := rfl
@[simp] theorem State.issue_bytesRx (r : Request) : (s.issue r).bytesRx = s.bytesRx := rfl
@[simp] theorem State.issue_crcFail (r : Request) : (s.issue r).crcFail = s.crcFail := rfl
@[simp] theorem State.issue_frameOut (r : Request) : (s.issue r).frameOut = s.frameOut := rfl
@[simp] theorem State.issue_phase (r : Request) : (s.issue r).phase = s.phase := rfl
@[simp] theorem State.issue_requests (r : Request) : (s.issue r).requests = r :: s.requests := rfl
@[simp] theorem State.issue_response (r : Request) : (s.issue r).response = s.response := rfl

@[simp] theorem State.answer_rxbuf (r : Except ErrorResult Value) : (s.answer r).rxbuf = s.rxbuf := by cases r <;> rfl
@[simp] theorem State.answer_framesRx (r : Except ErrorResult Value) : (s.answer r).framesRx = s.framesRx := by cases r <;> rfl
@[simp] theorem State.answer_bytesRx (r : Except ErrorResult Value) : (s.answer r).bytesRx = s.bytesRx := by cases r <;> rfl
@[simp] theorem State.answer_crcFail (r : Except ErrorResult Value) : (s.answer r).crcFail = s.crcFail := by cases r <;> rfl
@[simp] theorem State.answer_frameOut (r : Except ErrorResult Value) : (s.answer r).frameOut = s.frameOut := by cases r <;> rfl
@[simp] theorem State.answer_phase (r : Except ErrorResult Value) : (s.answer r).phase = s.phase := by cases r <;> rfl
@[simp] theorem State.answer_requests (r : Except ErrorResult Value) : (s.answer r).requests = s.requests := by cases r <;> rfl
@[simp] theorem State.answer_ok (v : Value) : s.answer (.ok v) = s.respond v := rfl
@[simp] theorem State.answer_error (e : ErrorResult) : s.answer (.error e) = s.raise e := rfl

end Sys2Proof.Machine
end

