-- ==== Sys2Proof/Laws/Codec.lean ====
section
/-! SUPPORT. The layout of a wire frame, offset by offset (30_encoding.md section 1), and one spec lemma each for
`encodeFrame` and `validateFrame`. -/

namespace Sys2Proof.Machine

variable (p : CrcParams) (t s : Byte) (pl : List Byte) (c : Word16)

@[simp] theorem frameInterior_length : (frameInterior t s pl).length = pl.length + 3 := by simp [frameInterior]

@[simp] theorem wireBytes_length : (wireBytes t s pl c).length = pl.length + 7 := by simp [wireBytes]

/-- The layout of 30_encoding.md R60 as one list. -/
theorem wireBytes_eq : wireBytes t s pl c =
    START :: t :: s :: BitVec.ofNat 8 pl.length :: (pl ++ [hi8 c, lo8 c, ENDM]) := by
  simp [wireBytes, frameInterior]

@[simp] theorem wireBytes_head : (wireBytes t s pl c).head? = some START := by simp [wireBytes]

@[simp] theorem byteAt_wireBytes_start : byteAt (wireBytes t s pl c) 0 = START := by simp [wireBytes_eq]
@[simp] theorem byteAt_wireBytes_target : byteAt (wireBytes t s pl c) 1 = t := by
  simp [wireBytes_eq, byteAt]
@[simp] theorem byteAt_wireBytes_sender : byteAt (wireBytes t s pl c) 2 = s := by
  simp [wireBytes_eq, byteAt]
@[simp] theorem byteAt_wireBytes_length : byteAt (wireBytes t s pl c) 3 = BitVec.ofNat 8 pl.length := by
  simp [wireBytes_eq, byteAt]
@[simp] theorem byteAt_wireBytes_hi : byteAt (wireBytes t s pl c) (pl.length + 4) = hi8 c := by
  simp [wireBytes_eq, byteAt]
@[simp] theorem byteAt_wireBytes_lo : byteAt (wireBytes t s pl c) (pl.length + 5) = lo8 c := by
  simp [wireBytes_eq, byteAt]
@[simp] theorem byteAt_wireBytes_end : byteAt (wireBytes t s pl c) (pl.length + 6) = ENDM := by
  simp [wireBytes_eq, byteAt]

/-- The checksum covers exactly the frameInterior (30_encoding.md R67). -/
@[simp] theorem slice_wireBytes_interior : slice (wireBytes t s pl c) 1 (pl.length + 3) = frameInterior t s pl := by
  simp [wireBytes, slice]

@[simp] theorem slice_wireBytes_payload : slice (wireBytes t s pl c) 4 pl.length = pl := by
  simp [wireBytes_eq, slice]

/-- The length field of a frame whose payload fits in it (30_encoding.md R63). -/
theorem lengthField_wireBytes (h : pl.length ≤ LEN_MAX) (rest : List Byte) :
    lengthField (wireBytes t s pl c ++ rest) = pl.length := by
  unfold lengthField
  rw [byteAt_append_left (by simp), byteAt_wireBytes_length]
  simp [LEN_MAX] at h ⊢
  omega

/-- VALIDATE of a well-formed frame with any checksum, followed by any bytes (40_codec.md R120, R124). -/
theorem validateFrame_wireBytes (h : pl.length ≤ LEN_MAX) (rest : List Byte) :
    validateFrame p (wireBytes t s pl c ++ rest) =
      if c = crc16 p (frameInterior t s pl) then
        .ok { target := t, sender := s, length := BitVec.ofNat 8 pl.length, payload := pl, checksum := c }
      else .error (.checksumMismatch c (crc16 p (frameInterior t s pl))) := by
  have hl := lengthField_wireBytes t s pl c h rest
  have hlen : (wireBytes t s pl c ++ rest).length = pl.length + 7 + rest.length := by simp
  have hb : ∀ i, i < pl.length + 7 → byteAt (wireBytes t s pl c ++ rest) i = byteAt (wireBytes t s pl c) i :=
    fun i hi => byteAt_append_left (by simpa using hi)
  have hs : ∀ i n, i + n ≤ pl.length + 7 → slice (wireBytes t s pl c ++ rest) i n = slice (wireBytes t s pl c) i n :=
    fun i n hi => slice_append_left (by simpa using hi)
  have hhead : (wireBytes t s pl c ++ rest).head? = some START := by simp [wireBytes]
  have htx : transmitted (wireBytes t s pl c ++ rest) pl.length = c := by
    simp [transmitted, hb (pl.length + 4) (by omega), hb (pl.length + 5) (by omega)]
  have hrc : computed p (wireBytes t s pl c ++ rest) pl.length = crc16 p (frameInterior t s pl) := by
    simp [computed, hs 1 (pl.length + 3) (by omega)]
  unfold validateFrame
  simp only [hhead, hl, hlen, htx, hrc, hb (pl.length + 6) (by omega), byteAt_wireBytes_end, MIN_FRAME, OVERHEAD]
  rw [if_neg (by simp), if_neg (by omega), if_neg (by omega), if_neg (by simp)]
  by_cases hc : c = crc16 p (frameInterior t s pl)
  · rw [if_neg (by simpa using hc), if_pos hc]
    simp [recordOf, htx, hb 1 (by omega), hb 2 (by omega), hb 3 (by omega), hs 4 pl.length (by omega)]
  · rw [if_pos (by simpa using hc), if_neg hc]

end Sys2Proof.Machine
end

