-- ==== Sys2Proof/Laws/Interface.lean ====
section
/-! SUPPORT. What a step can do, said once: nothing, one operation, one transition of a running PUSH, or a refusal
(10_state.md R35, 60_exceptions.md R207); and what an operation that completes leaves alone. -/

namespace Sys2Proof.Machine

/-- The four next states of a step. -/
theorem step_next_cases {s t : State} (h : step s = .next t) :
    (s.phase = .idle ∧ s.requests = [] ∧ t = s) ∨
    (∃ r rest i, s.phase = .idle ∧ s.requests = r :: rest ∧ decode r = .ok i ∧
      exec i { s with requests := rest } = .next t) ∨
    (s.phase = .extract ∧ s.requests = [] ∧ t = extractTransitionWith Config.crc s) := by
  unfold step serveWith at h
  split at h
  · rename_i hp hr
    cases h
    exact .inl ⟨hp, hr, rfl⟩
  · rename_i r rest hp hr
    split at h
    · rename_i i hd
      refine .inr (.inl ⟨r, rest, i, hp, hr, hd, ?_⟩)
      rw [← h]
      simp [State.takeRequest, hr]
    · cases h
  · rename_i hp hr
    cases h
    exact .inr (.inr ⟨hp, hr, rfl⟩)
  · cases h

/-- No operation and no step faults: `Fault` has no constructor (60_exceptions.md R210). -/
theorem fault_elim (f : Fault) : False := by cases f

@[simp] theorem Instance.start_params (p : CrcParams) (h : p.Admitted) : (Instance.start p h).params = p := rfl

@[simp] theorem Instance.start_state (p : CrcParams) (h : p.Admitted) : (Instance.start p h).state = State.reset := rfl

/-- Two instances with the same parameters and state are the same instance: the admission is no further data. -/
theorem Instance.eq_of_params_state {x y : Instance} (hp : x.params = y.params) (hs : x.state = y.state) : x = y := by
  cases x
  cases y
  cases hp
  cases hs
  rfl

/-- exec is exec under Config's parameters (92_eei_decisions.md D3). -/
theorem execWith_config (i : Instr) (s : State) : execWith Config.crc i s = exec i s := by cases i <;> rfl

end Sys2Proof.Machine
end

