-- ==== Sys2Proof/Laws/PerInstr.lean ====
section
/-! SUPPORT. A statement about every operation as syntax, one lemma per constructor: the encoder writes the op code of
spec/opcode_table.json and the number of operands of 30_encoding.md section 2. -/

namespace Sys2Proof.Laws.TableOpcode

/-- The op code and the number of operands the table gives an operation (30_encoding.md section 2). -/
def table : Instr → Nat × Nat
  | .encode _ _ _ => (1, 3)
  | .validate _ => (2, 1)
  | .crc _ => (3, 1)
  | .push _ => (4, 1)
  | .readStatus _ => (5, 1)
  | .reset => (6, 0)

/-- The encoder follows the table. -/
def Statement (i : Instr) : Prop :=
  (encode i).op.toNat = (table i).1 ∧ (encode i).operands.length = (table i).2

theorem encode (target sender : Int) (payload : List Byte) : Statement (.encode target sender payload) := ⟨rfl, rfl⟩
theorem validate (candidate : List Byte) : Statement (.validate candidate) := ⟨rfl, rfl⟩
theorem crc (data : List Byte) : Statement (.crc data) := ⟨rfl, rfl⟩
theorem push (chunk : List Byte) : Statement (.push chunk) := ⟨rfl, rfl⟩
theorem readStatus (index : Nat) : Statement (.readStatus index) := ⟨rfl, rfl⟩
theorem reset : Statement .reset := ⟨rfl, rfl⟩

end Sys2Proof.Laws.TableOpcode
end

