-- ==== Sys2Proof/Laws/Stream.lean ====
section
/-! SUPPORT. What one extraction step can do, said once (41_decoder.md R132), and the facts every later proof about
PUSH uses: resynchronisation drops a front without start marker, a judged candidate is the wire form of its record,
each CONTINUE makes the buffer shorter, and the loop leaves the fields it does not own alone. -/

namespace Sys2Proof.Machine

/-! ### Resynchronisation (step 1) -/

@[simp] theorem resync_nil : resync [] = [] := rfl

@[simp] theorem resync_start (bs : List Byte) : resync (START :: bs) = START :: bs := by simp [resync]

theorem resync_noise {b : Byte} (h : b ≠ START) (bs : List Byte) : resync (b :: bs) = resync bs := by
  simp [resync, h]

/-- What step 1 drops is a front with no start marker in it. -/
theorem resync_split (buf : List Byte) : ∃ noise, buf = noise ++ resync buf ∧ ∀ b ∈ noise, b ≠ START := by
  induction buf with
  | nil => exact ⟨[], rfl, by simp⟩
  | cons b bs ih =>
    by_cases h : b = START
    · exact ⟨[], by simp [h], by simp⟩
    · obtain ⟨noise, hn, hm⟩ := ih
      refine ⟨b :: noise, ?_, ?_⟩
      · rw [resync_noise h, List.cons_append, ← hn]
      · simpa [h] using hm

/-- After step 1 the buffer is empty or begins with the start marker. -/
theorem resync_eq_nil_or_start (buf : List Byte) : resync buf = [] ∨ ∃ rest, resync buf = START :: rest := by
  induction buf with
  | nil => exact .inl rfl
  | cons b bs ih =>
    by_cases h : b = START
    · exact .inr ⟨bs, by simp [h]⟩
    · rwa [resync_noise h]

theorem resync_append_noise {noise : List Byte} (h : ∀ b ∈ noise, b ≠ START) (rest : List Byte) :
    resync (noise ++ rest) = resync rest := by
  induction noise with
  | nil => rfl
  | cons b bs ih =>
    rw [List.cons_append, resync_noise (h b (by simp))]
    exact ih fun x hx => h x (by simp [hx])

theorem resync_length_le (buf : List Byte) : (resync buf).length ≤ buf.length := by
  obtain ⟨noise, hn, -⟩ := resync_split buf
  have := congrArg List.length hn
  simp at this
  omega

theorem Quiescent.resync_eq {buf : List Byte} (h : Quiescent buf) : resync buf = buf := by
  rcases h with rfl | ⟨hs, -⟩
  · rfl
  · cases buf with
    | nil => rfl
    | cons b bs =>
      obtain rfl : b = START := by simpa using hs
      simp

/-! ### The candidate and its record (step 4) -/

theorem quiescent_or_whole {buf : List Byte} (h : buf = [] ∨ ∃ rest, buf = START :: rest) :
    Quiescent buf ∨ Whole buf := by
  rcases h with rfl | ⟨rest, rfl⟩
  · exact .inl (.inl rfl)
  · by_cases h7 : (START :: rest).length < MIN_FRAME
    · exact .inl (.inr ⟨rfl, .inl h7⟩)
    · by_cases hc : (START :: rest).length < lengthField (START :: rest) + OVERHEAD
      · exact .inl (.inr ⟨rfl, .inr hc⟩)
      · exact .inr ⟨rfl, by omega, by omega⟩

theorem Whole.not_quiescent {buf : List Byte} (h : Whole buf) : ¬ Quiescent buf := by
  have h1 := h.minimum
  have h2 := h.complete
  rintro (rfl | ⟨-, h7 | hc⟩)
  · simp at h1
  · omega
  · omega

/-- A whole candidate with the right end marker is the wire form of its record (30_encoding.md R60, R70). -/
theorem Whole.take_eq_wire {buf : List Byte} (h : Whole buf) (he : byteAt buf (lengthField buf + 6) = ENDM) :
    buf.take (lengthField buf + OVERHEAD) = (recordOf buf (lengthField buf)).wire := by
  obtain ⟨hs, hm, hc⟩ := h
  match buf, hs, hm, hc, he with
  | a :: b :: c :: d :: rest, hs, hm, hc, he =>
    obtain rfl : a = START := by simpa using hs
    have hL : lengthField (START :: b :: c :: d :: rest) = d.toNat := rfl
    rw [hL] at hc he ⊢
    have hlen : d.toNat + 3 ≤ rest.length := by simpa [OVERHEAD] using hc
    have hend : byteAt rest (d.toNat + 2) = ENDM := he
    have hsplit : rest.take (d.toNat + 3) =
        rest.take d.toNat ++ [byteAt rest d.toNat, byteAt rest (d.toNat + 1), byteAt rest (d.toNat + 2)] := by
      rw [byteAt_eq_getElem (by omega), byteAt_eq_getElem (by omega), byteAt_eq_getElem (by omega)]
      rw [← List.take_append_getElem (l := rest) (i := d.toNat + 2) (by omega),
        ← List.take_append_getElem (l := rest) (i := d.toNat + 1) (by omega),
        ← List.take_append_getElem (l := rest) (i := d.toNat) (by omega)]
      rw [List.append_assoc, List.append_assoc]
      rfl
    have htake : (START :: b :: c :: d :: rest).take (d.toNat + OVERHEAD) =
        START :: b :: c :: d :: rest.take (d.toNat + 3) := rfl
    have htx : transmitted (START :: b :: c :: d :: rest) d.toNat = u16 (byteAt rest d.toNat) (byteAt rest (d.toNat + 1)) :=
      rfl
    have hpl : slice (START :: b :: c :: d :: rest) 4 d.toNat = rest.take d.toNat := rfl
    rw [htake, hsplit, hend]
    simp [FrameRecord.wire, recordOf, htx, hpl, byteAt]
  | [], _, hm, _, _ => simp at hm
  | [_], _, hm, _, _ => simp at hm
  | [_, _], _, hm, _, _ => simp [MIN_FRAME] at hm
  | [_, _, _], _, hm, _, _ => simp [MIN_FRAME] at hm

/-- The record's length field equals the length of its payload (10_state.md R26). -/
theorem Whole.record_length {buf : List Byte} (h : Whole buf) :
    (recordOf buf (lengthField buf)).payload.length = (recordOf buf (lengthField buf)).length.toNat := by
  have hc := h.complete
  simp only [recordOf, OVERHEAD] at hc ⊢
  rw [slice_length (by omega)]
  rfl

/-- The wire form of a record whose length field agrees with its payload is the frame of its fields. -/
theorem FrameRecord.wire_eq_wireBytes {f : FrameRecord} (h : f.payload.length = f.length.toNat) :
    f.wire = wireBytes f.target f.sender f.payload f.checksum := by
  have hl : BitVec.ofNat 8 f.payload.length = f.length := by rw [h]; simp
  simp [FrameRecord.wire, wireBytes_eq, hl]

/-- The CRC recomputed over a judged candidate is that of its record's frameInterior (30_encoding.md R67, R70). -/
theorem Whole.computed_eq {buf : List Byte} (h : Whole buf) (he : byteAt buf (lengthField buf + 6) = ENDM)
    (p : CrcParams) : computed p buf (lengthField buf) =
      crc16 p (frameInterior (recordOf buf (lengthField buf)).target (recordOf buf (lengthField buf)).sender
        (recordOf buf (lengthField buf)).payload) := by
  have hlen := h.record_length
  have hs := slice_wireBytes_interior (recordOf buf (lengthField buf)).target (recordOf buf (lengthField buf)).sender
    (recordOf buf (lengthField buf)).payload (recordOf buf (lengthField buf)).checksum
  rw [← FrameRecord.wire_eq_wireBytes hlen, ← h.take_eq_wire he, hlen] at hs
  unfold computed
  rw [← hs]
  congr 1
  rw [slice_take]
  · rfl
  · show 1 + (lengthField buf + 3) ≤ lengthField buf + OVERHEAD
    simp only [OVERHEAD]
    omega

/-- A record whose length field agrees with its payload is valid exactly when its checksum is that of its interior
(41_decoder.md R147). -/
theorem FrameRecord.valid_iff {p : CrcParams} {f : FrameRecord} (h : f.payload.length = f.length.toNat) :
    f.Valid p ↔ f.checksum = crc16 p (frameInterior f.target f.sender f.payload) := by
  have hle : f.payload.length ≤ LEN_MAX := by have := f.length.isLt; simp only [LEN_MAX]; omega
  have hl : BitVec.ofNat 8 f.payload.length = f.length := by rw [h]; simp
  have hv := validateFrame_wireBytes p f.target f.sender f.payload f.checksum hle []
  rw [List.append_nil, ← FrameRecord.wire_eq_wireBytes h, hl] at hv
  unfold FrameRecord.Valid
  rw [hv]
  constructor
  · intro hx
    by_contra hne
    rw [if_neg hne] at hx
    cases hx
  · intro hx
    rw [if_pos hx]

/-- VALIDATE of a whole candidate can only find the end marker wrong, find the checksum wrong, or accept its record
(41_decoder.md R135). -/
theorem Whole.validate_take {buf : List Byte} (h : Whole buf) (p : CrcParams) :
    validateFrame p (buf.take (lengthField buf + OVERHEAD)) =
      if byteAt buf (lengthField buf + 6) ≠ ENDM then
        .error (.framingError (lengthField buf + 6) (byteAt buf (lengthField buf + 6)))
      else if transmitted buf (lengthField buf) ≠ computed p buf (lengthField buf) then
        .error (.checksumMismatch (transmitted buf (lengthField buf)) (computed p buf (lengthField buf)))
      else .ok (recordOf buf (lengthField buf)) := by
  by_cases he : byteAt buf (lengthField buf + 6) = ENDM
  · have hlen := h.record_length
    have hle : (recordOf buf (lengthField buf)).payload.length ≤ LEN_MAX := by
      have := (recordOf buf (lengthField buf)).length.isLt
      simp only [LEN_MAX]
      omega
    have hv := validateFrame_wireBytes p (recordOf buf (lengthField buf)).target (recordOf buf (lengthField buf)).sender
      (recordOf buf (lengthField buf)).payload (recordOf buf (lengthField buf)).checksum hle []
    rw [List.append_nil, ← h.computed_eq he p] at hv
    rw [if_neg (by simpa using he), h.take_eq_wire he, FrameRecord.wire_eq_wireBytes hlen, hv]
    by_cases hx : transmitted buf (lengthField buf) = computed p buf (lengthField buf)
    · rw [if_pos (by exact hx), if_neg (by simpa using hx), hlen]
      simp [recordOf]
    · rw [if_neg (by exact hx), if_pos hx]
      rfl
  · have h1 := h.minimum
    have h2 := h.complete
    simp only [MIN_FRAME, OVERHEAD] at h1 h2 ⊢
    have hlf : lengthField (buf.take (lengthField buf + 7)) = lengthField buf := by
      unfold lengthField
      rw [byteAt_take (by omega)]
    have hl : (buf.take (lengthField buf + 7)).length = lengthField buf + 7 := by
      simp
      omega
    have hhead : (buf.take (lengthField buf + 7)).head? = some START := by
      have hs := h.start
      cases buf with
      | nil => simp at hs
      | cons b bs => exact hs
    unfold validateFrame
    rw [if_pos he, if_neg (by simpa using hhead), if_neg (by rw [hl]; simp only [MIN_FRAME]; omega)]
    simp only [hlf, hl, OVERHEAD]
    rw [if_neg (by omega), byteAt_take (by omega), if_pos he]

/-! ### The extraction step -/

/-- Everything an extraction step can do (41_decoder.md R132): stop, slide, discard, or emit. -/
theorem extractStep_cases (p : CrcParams) (s : State) :
    (Quiescent (resync s.rxbuf) ∧ extractStepWith p s = (.stop, { s with rxbuf := resync s.rxbuf })) ∨
    (Whole (resync s.rxbuf) ∧
      ((byteAt (resync s.rxbuf) (lengthField (resync s.rxbuf) + 6) ≠ ENDM ∧
          extractStepWith p s = (.again, { s with rxbuf := (resync s.rxbuf).drop 1 })) ∨
        (byteAt (resync s.rxbuf) (lengthField (resync s.rxbuf) + 6) = ENDM ∧
          transmitted (resync s.rxbuf) (lengthField (resync s.rxbuf)) ≠
            computed p (resync s.rxbuf) (lengthField (resync s.rxbuf)) ∧
          extractStepWith p s = (.again, { s with
            rxbuf := (resync s.rxbuf).drop (lengthField (resync s.rxbuf) + OVERHEAD)
            crcFail := counterAdd s.crcFail 1 })) ∨
        (byteAt (resync s.rxbuf) (lengthField (resync s.rxbuf) + 6) = ENDM ∧
          transmitted (resync s.rxbuf) (lengthField (resync s.rxbuf)) =
            computed p (resync s.rxbuf) (lengthField (resync s.rxbuf)) ∧
          extractStepWith p s = (.again, { s with
            rxbuf := (resync s.rxbuf).drop (lengthField (resync s.rxbuf) + OVERHEAD)
            framesRx := counterAdd s.framesRx 1
            frameOut := s.frameOut ++ [recordOf (resync s.rxbuf) (lengthField (resync s.rxbuf))] })))) := by
  generalize hb : resync s.rxbuf = buf
  have hshape := resync_eq_nil_or_start s.rxbuf
  rw [hb] at hshape
  rcases quiescent_or_whole hshape with hq | hw
  · refine .inl ⟨hq, ?_⟩
    unfold extractStepWith
    simp only [hb]
    rcases hq with rfl | ⟨-, h7 | hc⟩
    · simp
    · rw [if_pos h7]
    · split <;> rfl
  · refine .inr ⟨hw, ?_⟩
    have h1 := hw.minimum
    have h2 := hw.complete
    have hby : ∀ i, i < lengthField buf + OVERHEAD → byteAt (buf.take (lengthField buf + OVERHEAD)) i = byteAt buf i :=
      fun i hi => byteAt_take hi
    have htx : transmitted (buf.take (lengthField buf + OVERHEAD)) (lengthField buf) = transmitted buf (lengthField buf) := by
      simp [transmitted, hby (lengthField buf + 4) (by simp [OVERHEAD]),
        hby (lengthField buf + 5) (by simp [OVERHEAD])]
    have hrc : computed p (buf.take (lengthField buf + OVERHEAD)) (lengthField buf) = computed p buf (lengthField buf) := by
      simp [computed, slice_take (s := buf) (m := lengthField buf + OVERHEAD) (i := 1) (n := lengthField buf + 3)
        (by simp only [OVERHEAD]; omega)]
    have hrec : recordOf (buf.take (lengthField buf + OVERHEAD)) (lengthField buf) = recordOf buf (lengthField buf) := by
      simp only [recordOf, htx]
      rw [hby 1 (by simp only [OVERHEAD]; omega), hby 2 (by simp only [OVERHEAD]; omega),
        hby 3 (by simp only [OVERHEAD]; omega), slice_take (by simp only [OVERHEAD]; omega)]
    unfold extractStepWith
    simp only [hb, htx, hrc, hrec, hby (lengthField buf + 6) (by simp)]
    rw [if_neg (by omega), if_neg (by omega)]
    by_cases he : byteAt buf (lengthField buf + 6) = ENDM
    · rw [if_neg (by simpa using he)]
      by_cases hx : transmitted buf (lengthField buf) = computed p buf (lengthField buf)
      · rw [if_neg (by simpa using hx)]
        exact .inr (.inr ⟨he, hx, rfl⟩)
      · rw [if_pos hx]
        exact .inr (.inl ⟨he, hx, rfl⟩)
    · rw [if_pos he]
      exact .inl ⟨he, rfl⟩

/-- The step sees of RXBUF only what step 1 leaves of it. -/
theorem extractStep_resync (p : CrcParams) {s : State} {buf buf' : List Byte} (h : resync buf = resync buf') :
    extractStepWith p { s with rxbuf := buf } = extractStepWith p { s with rxbuf := buf' } := by
  unfold extractStepWith
  simp only [h]

/-- A step that does not stop removes at least one byte (41_decoder.md R140). -/
theorem extractStep_again_shorter {p : CrcParams} {s t : State} (h : extractStepWith p s = (.again, t)) :
    t.rxbuf.length < s.rxbuf.length := by
  have hle := resync_length_le s.rxbuf
  rcases extractStep_cases p s with ⟨-, he⟩ | ⟨hw, ⟨-, he⟩ | ⟨-, -, he⟩ | ⟨-, -, he⟩⟩ <;>
    rw [he] at h <;> cases h
  all_goals
    have := hw.minimum
    simp only [MIN_FRAME, OVERHEAD, List.length_drop] at this ⊢
    omega

/-- An extraction step writes only RXBUF, FRAMES_RX, CRC_FAIL and FRAME_OUT (41_decoder.md R132). -/
theorem extractStep_frame (p : CrcParams) (s : State) :
    (extractStepWith p s).2.bytesRx = s.bytesRx ∧ (extractStepWith p s).2.phase = s.phase ∧
    (extractStepWith p s).2.requests = s.requests ∧ (extractStepWith p s).2.response = s.response := by
  rcases extractStep_cases p s with ⟨-, he⟩ | ⟨-, ⟨-, he⟩ | ⟨-, -, he⟩ | ⟨-, -, he⟩⟩ <;> rw [he] <;> simp

/-! ### The pieces of a stream -/

@[simp] theorem divides_nil (p : CrcParams) (stream residual : List Byte) :
    Divides p stream [] residual ↔ stream = residual ∧ Quiescent residual := Iff.rfl

@[simp] theorem divides_cons (p : CrcParams) (stream : List Byte) (x : Piece) (xs : List Piece)
    (residual : List Byte) : Divides p stream (x :: xs) residual ↔
      ∃ rest, stream = x.bytes ++ rest ∧ x.Legit p stream ∧ Divides p rest xs residual := Iff.rfl

/-- A whole candidate begins with no noise byte. -/
theorem Whole.not_noise {stream rest : List Byte} {b : Byte} (h : Whole stream) (hb : b ≠ START) :
    stream ≠ b :: rest := by
  rintro rfl
  exact hb (by simpa using h.start)

/-- A residual begins with no noise byte. -/
theorem Quiescent.not_noise {stream rest : List Byte} {b : Byte} (h : Quiescent stream) (hb : b ≠ START) :
    stream ≠ b :: rest := by
  rintro rfl
  rcases h with h | ⟨h, -⟩
  · cases h
  · exact hb (by simpa using h)

/-! ### The loop and PUSH -/

@[simp] theorem extractLoop_zero (p : CrcParams) (s : State) : extractLoopWith p 0 s = (.again, s) := rfl

theorem extractLoop_succ_stop {p : CrcParams} {s t : State} (h : extractStepWith p s = (.stop, t)) (n : Nat) :
    extractLoopWith p (n + 1) s = (.stop, t) := by simp [extractLoopWith, h]

theorem extractLoop_succ_again {p : CrcParams} {s t : State} (h : extractStepWith p s = (.again, t)) (n : Nat) :
    extractLoopWith p (n + 1) s = extractLoopWith p n t := by simp [extractLoopWith, h]

/-- What every step keeps, the loop keeps. -/
theorem extractLoop_keeps {p : CrcParams} {P : State → Prop}
    (hP : ∀ s, P s → P (extractStepWith p s).2) (n : Nat) (s : State) (h : P s) : P (extractLoopWith p n s).2 := by
  induction n generalizing s with
  | zero => exact h
  | succ n ih =>
    have hs := hP s h
    cases he : extractStepWith p s with
    | mk sig t =>
      rw [he] at hs
      cases sig with
      | stop => rw [extractLoop_succ_stop he]; exact hs
      | again => rw [extractLoop_succ_again he]; exact ih t hs

/-- The loop writes only RXBUF, FRAMES_RX, CRC_FAIL and FRAME_OUT (41_decoder.md R131, R132). -/
theorem extractLoop_frame (p : CrcParams) (n : Nat) (s : State) :
    (extractLoopWith p n s).2.bytesRx = s.bytesRx ∧ (extractLoopWith p n s).2.phase = s.phase ∧
    (extractLoopWith p n s).2.requests = s.requests ∧ (extractLoopWith p n s).2.response = s.response := by
  refine extractLoop_keeps (P := fun x => x.bytesRx = s.bytesRx ∧ x.phase = s.phase ∧ x.requests = s.requests ∧
    x.response = s.response) ?_ n s ⟨rfl, rfl, rfl, rfl⟩
  rintro x ⟨h1, h2, h3, h4⟩
  obtain ⟨k1, k2, k3, k4⟩ := extractStep_frame p x
  exact ⟨k1.trans h1, k2.trans h2, k3.trans h3, k4.trans h4⟩

end Sys2Proof.Machine
end

