-- ==== Sys2Proof/Tests/Slice0.lean ====
section
/-! SUPPORT. Tests: the WellFormed smoke test, decoding, the vectors of 95_test_vectors.md, and one witness for the
hypotheses of every obligation. Expected values are the spec's; those with a checksum value stand under the spec's
candidate parameter set ARC, which is a test's choice and not the model's. -/

namespace Sys2Proof.Tests

open Sys2Proof Sys2Proof.Machine

/-- The candidate parameters ARC (95_test_vectors.md). -/
def arc : CrcParams := { poly := 0x8005#16, init := 0, refin := true, refout := true, xorout := 0 }

/-- Bytes written as numbers. -/
def bytes (l : List Nat) : List Byte := l.map (BitVec.ofNat 8)

/-- One step, from a state with one request issued, under ARC. -/
def request (s : State) (i : Instr) : Outcome := stepWith arc (s.issue (Sys2Proof.encode i))

/-- The result of an operation that completed. -/
def result : Outcome → Option Response
  | .next t => t.response
  | .fault _ => none
  | .refused _ => none

/-- The state an operation left. -/
def after : Outcome → Option State
  | .next t => some t
  | .fault _ => none
  | .refused _ => none

/-- Why a request was refused. -/
def refusal : Outcome → Option Refusal
  | .next _ => none
  | .fault _ => none
  | .refused r => some r

/-! ### Smoke and decoding -/

theorem test_wellFormed_refuses_status_index_3 : WellFormed (.readStatus 3) = false := by decide
theorem test_wellFormed_takes_status_index_2 : WellFormed (.readStatus 2) = true := by decide

/-- The op codes of spec/opcode_table.json, bit by bit, each with its operands (30_encoding.md section 2). -/
theorem test_decode_encode :
    decode { op := 0b00000001#8, operands := [.int 2, .int 0, .seq [0x53, 255]] } =
      .ok (.encode 2 0 [0x53#8, 0xFF#8]) := by decide
theorem test_decode_validate :
    decode { op := 0b00000010#8, operands := [.seq [0x55, 2, 0]] } = .ok (.validate [0x55#8, 0x02#8, 0x00#8]) := by decide
theorem test_decode_crc :
    decode { op := 0b00000011#8, operands := [.seq [0]] } = .ok (.crc [0x00#8]) := by decide
theorem test_decode_push :
    decode { op := 0b00000100#8, operands := [.seq [0, 0x13]] } = .ok (.push [0x00#8, 0x13#8]) := by decide
theorem test_decode_readStatus :
    decode { op := 0b00000101#8, operands := [.int 1] } = .ok (.readStatus 1) := by decide
theorem test_decode_reset : decode { op := 0b00000110#8, operands := [] } = .ok .reset := by decide

/-- V-OP-1 and V-OP-2: reserved op codes; a fractional target. -/
theorem test_decode_refuses :
    decode { op := 0x00#8, operands := [] } = .error (.reservedOpcode 0x00#8) ∧
    decode { op := 0x07#8, operands := [] } = .error (.reservedOpcode 0x07#8) ∧
    decode { op := 0x01#8, operands := [.other "2.5", .int 0, .seq []] } = .error (.malformedOperand 0x01#8) := by decide

/-! ### The vectors, at most two for an operation -/

/-- V-ENC-5: markers in the payload are copied unstuffed. -/
theorem test_encode_markers_in_payload :
    result (request State.reset (.encode 2 0 (bytes [0xAA, 0x55]))) =
      some (.ok (.wire (bytes [0x55, 2, 0, 2, 0xAA, 0x55, 0x9F, 0x66, 0xAA]))) := by decide +kernel

/-- V-ENC-11: the target is checked before the sender. -/
theorem test_encode_target_first :
    result (request State.reset (.encode 0 1 (bytes [0x58]))) =
      some (.error (.invalidAddress .target 0)) := by decide +kernel

/-- V-VAL-9: the end marker is looked at before the checksum. -/
theorem test_validate_framing_first :
    result (request State.reset (.validate (bytes [0x55, 2, 0, 2, 0x4F, 0x4B, 0, 0, 0]))) =
      some (.error (.framingError 8 0)) := by decide +kernel

/-- V-VAL-11: addresses are not checked. -/
theorem test_validate_addresses_unchecked :
    result (request State.reset (.validate (bytes [0x55, 0, 9, 0, 0x50, 0x06, 0xAA]))) =
      some (.ok (.record { target := 0, sender := 9, length := 0, payload := [], checksum := 0x5006#16 })) := by
  decide +kernel

/-- V-CRC-3: the check value of "123456789". -/
theorem test_crc_check_value :
    result (request State.reset (.crc (bytes [0x31, 0x32, 0x33, 0x34, 0x35, 0x36, 0x37, 0x38, 0x39]))) =
      some (.ok (.crc 0xBB3D#16)) := by decide +kernel

/-- V-CRC-7. -/
theorem test_crc_ff : result (request State.reset (.crc (bytes [0xFF]))) = some (.ok (.crc 0x4040#16)) := by
  decide +kernel

/-- V-DEC-3: noise and a stray start marker before a frame. -/
theorem test_push_stray_marker :
    (after (request State.reset
      (.push (bytes [0, 0x13, 0x55, 0x55, 2, 0, 2, 0x4F, 0x4B, 0x07, 0xAC, 0xAA])))).map
        (fun t => (t.frameOut, t.rxbuf, t.framesRx, t.bytesRx, t.crcFail)) =
      some ([{ target := 2, sender := 0, length := 2, payload := bytes [0x4F, 0x4B], checksum := 0x07AC#16 }],
        [], 1, 12, 0) := by decide +kernel

/-- V-DEC-13: the genuine frame is swallowed, with CRC_FAIL at its top so that it wraps (10_state.md R23). -/
theorem test_push_swallowed :
    (after (request { State.reset with crcFail := 0xFFFFFFFF#32 }
      (.push (bytes [0x55, 1, 0, 4, 0x55, 2, 0, 0, 0xC0, 0xA1, 0xAA])))).map
        (fun t => (t.frameOut, t.rxbuf, t.framesRx, t.bytesRx, t.crcFail)) =
      some ([], [], 0, 11, 0) := by decide +kernel

/-- READ_STATUS 2 is CRC_FAIL (10_state.md R34). -/
theorem test_readStatus_crcFail :
    result (request { State.reset with framesRx := 1, bytesRx := 9, crcFail := 7 } (.readStatus 2)) =
      some (.ok (.count 7)) := by decide +kernel

/-- V-RS-3. -/
theorem test_readStatus_3_refused :
    refusal (request State.reset (.readStatus 3)) = some (.reservedStatusIndex 3) := by decide +kernel

/-- A frame record, for states that have emitted one. -/
def someRecord : FrameRecord := { target := 2, sender := 0, length := 0, payload := [], checksum := 0xC0A1#16 }

/-- A state with something in every element: part of a frame received, counters running, a record emitted. -/
def busy : State :=
  { rxbuf := bytes [0x55, 2, 0, 5, 0x53], framesRx := 1, bytesRx := 12, crcFail := 3, frameOut := [someRecord]
    phase := .idle, requests := [], response := none }

/-- RESET clears all but FRAME_OUT (V-RST-1's middle line; 42_control.md R172). -/
theorem test_reset_keeps_frameOut :
    (after (request busy .reset)).map (fun t => (t.rxbuf, t.framesRx, t.bytesRx, t.crcFail, t.frameOut)) =
      some ([], 0, 0, 0, [someRecord]) := by decide +kernel

/-! ### Witnesses: for each obligation with hypotheses, a case that meets them all -/

/-- The wire frame of (2, 0, []) and its record, with this machine's own checksum. -/
def emptyFrame : List Byte := wireFrame Config.crc 0x02#8 0x00#8 []
def emptyRecord : FrameRecord :=
  { target := 2, sender := 0, length := 0, payload := [], checksum := crc16 Config.crc (bytes [2, 0, 0]) }

/-- A state with a PUSH running. -/
def running : State := { busy with phase := .extract }

/-- A state with an idle block and given pending requests. -/
def pending (rs : List Request) : State := { busy with requests := rs }

theorem witness_ResetClearsAllButFrameOut : busy.phase = .idle := rfl

theorem witness_EncodeOfDecode :
    decode { op := 0x01#8, operands := [.int (-1), .int 300, .seq [0, 255]] } =
      .ok (.encode (-1) 300 [0x00#8, 0xFF#8]) := by decide

theorem witness_StepRunsDecodedRequest :
    (pending [Sys2Proof.encode .reset]).phase = .idle ∧
    (pending [Sys2Proof.encode .reset]).requests = Sys2Proof.encode .reset :: [] ∧
    decode (Sys2Proof.encode .reset) = .ok .reset := by decide

theorem witness_ReservedOpcodesRefused :
    let low : Request := { op := 0x00#8, operands := [] }
    let seven : Request := { op := 0x07#8, operands := [.int 1] }
    let high : Request := { op := 0xFF#8, operands := [] }
    (pending [low]).phase = .idle ∧ (pending [low]).requests = low :: [] ∧ low.op.toNat = 0 ∧
    (pending [seven]).requests = seven :: [] ∧ 7 ≤ seven.op.toNat ∧
    (pending [high]).requests = high :: [] ∧ 7 ≤ high.op.toNat := by decide

theorem witness_MalformedOperandsRefused_idle :
    (pending [{ op := 0x01#8, operands := [] }]).phase = .idle ∧
    (pending [{ op := 0x01#8, operands := [] }]).requests = { op := 0x01#8, operands := [] } :: [] := by decide

/-- The clauses' own premises: a target that is no integer; an element 256, and one below 0; an index of -1; an operand
too many; the request of an operation. -/
theorem witness_MalformedOperandsRefused_clauses :
    (∀ t sd p, [Operand.other "2.5", .int 0, .seq []] ≠ [.int t, .int sd, .ofBytes p]) ∧
    (∀ b, [Operand.other "text"] ≠ [Operand.ofBytes b]) ∧ (∀ b, ([] : List Operand) ≠ [Operand.ofBytes b]) ∧
    (∀ n : Nat, [Operand.int (-1)] ≠ [.int (n : Int)]) ∧
    ([Operand.int 0] ≠ []) ∧ ((-1 : Int) < 0 ∨ (255 : Int) < -1) ∧ ((256 : Int) < 0 ∨ (255 : Int) < 256) ∧
    (∃ i : Instr, ({ op := 0x05#8, operands := [.int 0] } : Request) = Sys2Proof.encode i) := by
  refine ⟨by simp, by simp [Operand.ofBytes], by simp, ?_, by simp, .inl (by decide), .inr (by decide),
    .readStatus 0, rfl⟩
  intro n h
  simp only [List.cons.injEq, Operand.int.injEq, and_true] at h
  omega

/-- 41_decoder.md R139: a RESET issued in mid-PUSH is refused. -/
theorem test_reset_overlapping_refused : refusal (request running .reset) = some .overlappingRequest := by
  decide +kernel

theorem witness_OverlappingRequestsRefused :
    running.phase = .extract ∧ BytesExpr.eval 0x04#8 [] (.hex [0x55#8]) = .ok [0x55#8] ∧
    { running with requests := [Sys2Proof.encode .reset] }.requests = Sys2Proof.encode .reset :: [] ∧
    { running with requests := [Sys2Proof.encode (.push [])] }.requests = Sys2Proof.encode (.push []) :: [] := by decide

theorem witness_IdleBlockWaits : busy.phase = .idle ∧ busy.requests = [] := by decide

theorem witness_EveryOperationAvailable :
    busy.phase = .idle ∧ WellFormed (.encode 128 1 []) = true ∧ WellFormed (.validate []) = true ∧
    WellFormed (.crc []) = true ∧ WellFormed (.push []) = true ∧ WellFormed (.readStatus 2) = true ∧
    WellFormed .reset = true := by decide

theorem witness_CrcDetectsSingleBit :
    arc.poly ≠ 0#16 ∧ 1 < (bytes [0, 0xFF]).length ∧ 7 < 8 := by decide

theorem witness_EncodeBuildsWireFrame :
    (1 : Int) ≤ 1 ∧ (1 : Int) ≤ 127 ∧ (1 : Int) ≤ 127 ∧ (127 : Int) ≤ 127 ∧
    (List.replicate 255 0x55#8).length ≤ 255 ∧ ([] : List Byte).length ≤ 255 :=
  ⟨by decide, by decide, by decide, by decide, Nat.le_of_eq List.length_replicate, by decide⟩

/-- Each clause at a boundary: targets 0 and 128; targets 1 and 127 with senders 1 and -1; 256 payload bytes. -/
theorem witness_EncodeRejectsInOrder :
    ¬ ((1 : Int) ≤ 0 ∧ (0 : Int) ≤ 127) ∧ ¬ ((1 : Int) ≤ 128 ∧ (128 : Int) ≤ 127) ∧
    ((1 : Int) ≤ 1 ∧ (1 : Int) ≤ 127) ∧ ((1 : Int) ≤ 127 ∧ (127 : Int) ≤ 127) ∧ (1 : Int) ≠ 0 ∧ (-1 : Int) ≠ 0 ∧
    255 < (List.replicate 256 0x00#8).length :=
  ⟨by decide, by decide, by decide, by decide, by decide, by decide,
    Nat.lt_of_lt_of_eq (by decide : 255 < 256) List.length_replicate.symm⟩

/-- An ENCODE that completes with a wire frame: the hypotheses of EncodeOutputShape and ChecksumIsBigEndian. -/
theorem witness_EncodeOutputShape_ChecksumIsBigEndian :
    exec (.encode 2 0 []) busy = .next (busy.respond (.wire emptyFrame)) ∧
    (busy.respond (.wire emptyFrame)).response = some (.ok (.wire emptyFrame)) := ⟨rfl, rfl⟩

theorem witness_CodecTouchesNoState :
    (∃ t sd p, Instr.encode 0 1 [] = .encode t sd p) ∧ (∃ c, Instr.validate [] = .validate c) ∧
    (∃ d, Instr.crc [] = .crc d) := ⟨⟨0, 1, [], rfl⟩, ⟨[], rfl⟩, ⟨[], rfl⟩⟩

/-- The first four clauses' premises at a boundary of each: empty and a wrong first byte; 6 bytes; 7 bytes that want 8;
7 bytes with a wrong last one. -/
theorem witness_ValidateDecidesInOrder_lengths :
    (bytes []).head? ≠ some 0x55#8 ∧ (bytes [0x54]).head? ≠ some 0x55#8 ∧
    (bytes [0x55, 2, 0, 0, 0, 0]).head? = some 0x55#8 ∧ (bytes [0x55, 2, 0, 0, 0, 0]).length < 7 ∧
    7 ≤ (bytes [0x55, 2, 0, 1, 0, 0, 0xAA]).length ∧
    (bytes [0x55, 2, 0, 1, 0, 0, 0xAA]).length < ((bytes [0x55, 2, 0, 1, 0, 0, 0xAA]).getD 3 0#8).toNat + 7 ∧
    ((bytes [0x55, 2, 0, 0, 0, 0, 0xAB]).getD 3 0#8).toNat + 7 ≤ (bytes [0x55, 2, 0, 0, 0, 0, 0xAB]).length ∧
    (bytes [0x55, 2, 0, 0, 0, 0, 0xAB]).getD 6 0#8 ≠ 0xAA#8 := by decide

/-- The last two clauses' premises: the frame with the right checksum, and with its complement. -/
theorem witness_ValidateDecidesInOrder_checksums (c : Word16) :
    let cand := wireBytes 0x02#8 0x00#8 [] c
    let L := (cand.getD 3 0#8).toNat
    cand.head? = some 0x55#8 ∧ 7 ≤ cand.length ∧ L + 7 ≤ cand.length ∧ cand.getD (L + 6) 0#8 = 0xAA#8 ∧
    BitVec.ofNat 16 ((cand.getD (L + 4) 0#8).toNat * 256 + (cand.getD (L + 5) 0#8).toNat) = c ∧
    crc16 Config.crc ((cand.drop 1).take (L + 3)) = crc16 Config.crc (bytes [2, 0, 0]) ∧
    ~~~ (crc16 Config.crc (bytes [2, 0, 0])) ≠ crc16 Config.crc (bytes [2, 0, 0]) := by
  refine ⟨rfl, by rw [wireBytes_length]; decide, by rw [wireBytes_length]; exact Nat.le_refl 7, rfl, ?_, rfl, ?_⟩
  · apply BitVec.eq_of_toNat_eq
    have h := congrArg BitVec.toNat (u16_hi8_lo8 c)
    rw [u16_toNat] at h
    simp only [wireBytes_eq]
    simp
    omega
  · intro h
    have := congrArg (fun v => v.getLsbD 0) h
    simp at this

theorem witness_ValidateAcceptsFrames : (List.replicate 255 0x55#8).length ≤ 255 :=
  Nat.le_of_eq List.length_replicate

/-- V-VAL-13. -/
theorem witness_ValidateIsSound : validateFrame arc (bytes [0x55, 2, 0, 0, 0xC0, 0xA1, 0xAA]) = .ok someRecord := by
  decide +kernel

theorem witness_CodecRoundTrip : (1 : Int) ≤ 127 ∧ (127 : Int) ≤ 127 ∧ (bytes [0x55, 0xAA]).length ≤ 255 := by decide

/-- A payload whose first three bytes complete a shorter frame: hi, lo of CRC16([02 00 00]) under ARC, then 0xAA. -/
def trickPayload : List Byte := bytes [0xC0, 0xA1, 0xAA, 1, 2, 3, 4, 5]

/-- The wire frame of that payload under ARC. -/
def trickWire : List Byte := wireFrame arc 0x02#8 0x00#8 trickPayload

theorem witness_SingleBitFlipOutcome :
    arc.poly ≠ 0#16 ∧ encodeFrame arc 2 0 trickPayload = .ok trickWire ∧ trickWire.length = 15 ∧
    0 < trickWire.length ∧ 5 + trickPayload.length < trickWire.length ∧ 6 + trickPayload.length < trickWire.length := by
  decide +kernel

/-- The cases of a flipped length: longer (bit 0); shorter with another byte at the end (bit 3 of "ABCDEFGH"); shorter
with an end marker and a wrong checksum; shorter with an end marker and a right one. -/
theorem witness_SingleBitFlipOutcome_lengths :
    trickPayload.length < ((flipBit trickWire 3 0).getD 3 0#8).toNat ∧
    ((flipBit trickWire 3 3).getD 3 0#8).toNat < trickPayload.length ∧
    trickWire.getD (((flipBit trickWire 3 3).getD 3 0#8).toNat + 6) 0#8 = 0xAA#8 ∧
    u16 (trickWire.getD 4 0#8) (trickWire.getD 5 0#8) = crc16 arc (((flipBit trickWire 3 3).drop 1).take 3) ∧
    (let w := wireFrame arc 0x02#8 0x00#8 (bytes [0xC0, 0xA0, 0xAA, 1, 2, 3, 4, 5])
     w.getD 6 0#8 = 0xAA#8 ∧ u16 (w.getD 4 0#8) (w.getD 5 0#8) ≠ crc16 arc (((flipBit w 3 3).drop 1).take 3)) ∧
    (wireFrame arc 0x02#8 0x00#8 (bytes [0x41, 0x42, 0x43, 0x44, 0x45, 0x46, 0x47, 0x48])).getD 6 0#8 ≠ 0xAA#8 := by
  decide +kernel

theorem witness_ErrorsOnlyFromTheirOperation :
    exec (.encode 0 0 []) busy = .next (busy.raise (.invalidAddress .target 0)) ∧
    (busy.raise (.invalidAddress .target 0)).response = some (.error (.invalidAddress .target 0)) ∧
    (ErrorResult.invalidAddress .target 0).code = 0x01#8 ∧
    exec (.validate []) busy = .next (busy.raise (.noStartMarker none)) ∧
    (busy.raise (.noStartMarker none)).response = some (.error (.noStartMarker none)) ∧
    (ErrorResult.noStartMarker none).code = 0x03#8 := ⟨rfl, rfl, rfl, rfl, rfl, rfl⟩

theorem witness_StepDiscardsLeadingNoise : ∀ b ∈ bytes [0x00, 0x54, 0xAA], b ≠ 0x55#8 := by decide

theorem witness_IncompleteCandidateWaits :
    (bytes [0x55]).head? = some 0x55#8 ∧ (bytes [0x55, 2, 0, 0, 0, 0]).length < 7 ∧
    (bytes [0x55, 2, 0, 1, 0, 0, 0]).head? = some 0x55#8 ∧
    (bytes [0x55, 2, 0, 1, 0, 0, 0]).length < ((bytes [0x55, 2, 0, 1, 0, 0, 0]).getD 3 0#8).toNat + 7 := by decide

/-- V-DEC-5's candidate. -/
theorem witness_FramingErrorSlidesOneByte :
    let s : State := { busy with rxbuf := bytes [0x55, 2, 0, 0, 0x12, 0x34, 0x00] }
    s.rxbuf = 0x55#8 :: bytes [2, 0, 0, 0x12, 0x34, 0x00] ∧ 7 ≤ s.rxbuf.length ∧
    (s.rxbuf.getD 3 0#8).toNat + 7 ≤ s.rxbuf.length ∧
    s.rxbuf.getD ((s.rxbuf.getD 3 0#8).toNat + 6) 0#8 ≠ 0xAA#8 := by decide

/-- V-DEC-4's candidate. -/
theorem witness_ChecksumErrorDiscardsCandidate :
    let s : State := { busy with rxbuf := bytes [0x55, 2, 0, 2, 0x4F, 0x4B, 0, 0, 0xAA, 0x55] }
    (bytes [0x4F, 0x4B]).length ≤ 255 ∧
    0x0000#16 ≠ crc16 arc ([0x02#8, 0x00#8, BitVec.ofNat 8 (bytes [0x4F, 0x4B]).length] ++ bytes [0x4F, 0x4B]) ∧
    s.rxbuf = [0x55#8, 0x02#8, 0x00#8, BitVec.ofNat 8 (bytes [0x4F, 0x4B]).length] ++ bytes [0x4F, 0x4B] ++
      [hi8 0x0000#16, lo8 0x0000#16, 0xAA#8] ++ [0x55#8] := by decide +kernel

theorem witness_ValidFrameIsEmitted :
    let s : State := { busy with rxbuf := bytes [0x55, 2, 0, 0, 0xC0, 0xA1, 0xAA, 0x55] }
    let c := crc16 arc ([0x02#8, 0x00#8, BitVec.ofNat 8 ([] : List Byte).length] ++ [])
    s.rxbuf = [0x55#8, 0x02#8, 0x00#8, BitVec.ofNat 8 ([] : List Byte).length] ++ [] ++ [hi8 c, lo8 c, 0xAA#8] ++
      [0x55#8] := by decide +kernel

theorem witness_StepFourIsValidate :
    let s : State := { busy with rxbuf := bytes [0x55, 2, 0, 0, 0xC0, 0xA1, 0xAA] }
    s.rxbuf.head? = some 0x55#8 ∧ 7 ≤ s.rxbuf.length ∧ (s.rxbuf.getD 3 0#8).toNat + 7 ≤ s.rxbuf.length := by decide

theorem witness_PushCompletes : busy.phase = .idle := rfl

theorem witness_PushOfFrameEmitsIt :
    busy.clear.phase = .idle ∧ busy.clear.rxbuf = [] ∧ (List.replicate 255 0xAA#8).length ≤ 255 := by
  exact ⟨rfl, rfl, Nat.le_of_eq List.length_replicate⟩

/-- The state V-DEC-16's last bytes leave: fewer than 7, so they wait. -/
def waiting : State := { busy with rxbuf := [0x55#8, 0x02#8], bytesRx := 14, response := some (.ok .unit) }

/-- A PUSH that completes: the hypotheses of RxbufChangesThreeWays, CountersAreNotBehavioral,
QuiescentAfterPushAndReset, ResidualBound, ChunkingInvariance, StreamSoundness and PushIsItsExtractionSteps. -/
theorem witness_push : exec (.push [0x02#8]) { busy with rxbuf := [0x55#8], bytesRx := 13 } = .next waiting := rfl
theorem witness_PushIsItsExtractionSteps : { busy with rxbuf := [0x55#8], bytesRx := 13 }.requests = [] := rfl

/-- A RESET that completes: the hypotheses of QuiescentAfterPushAndReset, StreamFunction and NothingCrossesReset. -/
theorem witness_reset : exec .reset busy = .next (busy.clear.respond .unit) := rfl
theorem witness_NothingCrossesReset : exec .reset waiting = .next (waiting.clear.respond .unit) := rfl

/-- The other operations of RxbufChangesThreeWays and CountersAreNotBehavioral. -/
theorem witness_RxbufChangesThreeWays : exec (.readStatus 1) busy = .next (busy.respond (.count 12)) := rfl

theorem witness_CountersAreNotBehavioral : SameButCounters busy { busy with framesRx := 7, bytesRx := 8, crcFail := 9 } :=
  ⟨rfl, rfl, rfl, rfl⟩

theorem witness_FrameOutAppendOnly :
    step (pending [Sys2Proof.encode .reset]) = .next (busy.clear.respond .unit) ∧
    (pending [Sys2Proof.encode .reset]).phase = .idle ∧
    ∀ r rest chunk, (pending [Sys2Proof.encode .reset]).requests = r :: rest → decode r ≠ .ok (.push chunk) := by
  refine ⟨rfl, rfl, ?_⟩
  intro r rest chunk h
  cases h
  rw [show decode (Sys2Proof.encode .reset) = .ok .reset from rfl]
  simp

theorem witness_LoopStopsWithinBound : busy.rxbuf.length + 1 ≤ 6 := by decide

theorem witness_Quiescent : Quiescent busy.rxbuf ∧ Quiescent [] := ⟨.inr ⟨rfl, .inl (by decide)⟩, .inl rfl⟩

theorem witness_ByteSerialEquivalence : bytes [0x55, 2] ≠ [] ∧ busy.phase = .idle := by decide

theorem witness_EmptyPushChangesNothing : busy.phase = .idle ∧ Quiescent busy.rxbuf :=
  ⟨rfl, .inr ⟨rfl, .inl (by decide)⟩⟩

theorem witness_StreamFunction :
    ([[0x55#8], [0x02#8]] : List (List Byte)).flatten = [[0x55#8, 0x02#8]].flatten := by decide

/-- The hypothesis of the uniqueness clause of StreamSoundness and StreamFunction: noise, a frame with this machine's
own checksum, and a residual. -/
theorem witness_StreamSoundness_Divides :
    Divides Config.crc (0x00#8 :: (emptyFrame ++ [0x55#8])) [.noise 0x00#8, .frame emptyRecord] [0x55#8] := by
  have hv := validateFrame_wireBytes Config.crc 0x02#8 0x00#8 [] emptyRecord.checksum (by decide) []
  rw [if_pos (show emptyRecord.checksum = crc16 Config.crc (frameInterior 0x02#8 0x00#8 []) from rfl)] at hv
  exact ⟨_, rfl, by show (0x00#8 : Byte) ≠ START; decide, _, rfl, ⟨⟨rfl, by decide, by decide⟩, hv⟩, rfl,
    .inr ⟨rfl, .inl (by decide)⟩⟩

/-- A stream with a piece of every kind, under ARC: noise, V-DEC-5's slide with the noise that follows it, V-DEC-4's
corrupt candidate, V-ENC-4's frame, and a residual. -/
theorem test_divides_every_kind :
    Divides arc (bytes [0, 0x55, 2, 0, 0, 0x12, 0x34, 0, 0x55, 2, 0, 2, 0x4F, 0x4B, 0, 0, 0xAA,
        0x55, 2, 0, 0, 0xC0, 0xA1, 0xAA, 0x55])
      [.noise 0, .slide, .noise 2, .noise 0, .noise 0, .noise 0x12, .noise 0x34, .noise 0,
        .corrupt (bytes [0x55, 2, 0, 2, 0x4F, 0x4B, 0, 0, 0xAA]), .frame someRecord] [0x55#8] := by
  have noise : ∀ b : Byte, b ≠ START → ∀ stream, (Piece.noise b).Legit arc stream := fun _ h _ => h
  refine ⟨_, rfl, noise _ (by decide) _, _, rfl, ⟨⟨rfl, by decide, by decide⟩, by decide⟩, ?_⟩
  refine ⟨_, rfl, noise _ (by decide) _, _, rfl, noise _ (by decide) _, _, rfl, noise _ (by decide) _, ?_⟩
  refine ⟨_, rfl, noise _ (by decide) _, _, rfl, noise _ (by decide) _, _, rfl, noise _ (by decide) _, ?_⟩
  refine ⟨_, rfl, ⟨⟨rfl, by decide, by decide⟩, rfl, 0x0000#16, 0x07AC#16, by decide +kernel⟩, ?_⟩
  exact ⟨_, rfl, ⟨⟨rfl, by decide, by decide⟩, by decide +kernel⟩, rfl, .inr ⟨rfl, .inl (by decide)⟩⟩

/-- A state between operations that has emitted this machine's own empty frame. -/
def settled : State := { busy with frameOut := [emptyRecord] }

theorem witness_StepKeepsInvariant :
    Inv settled ∧ step { settled with requests := [Sys2Proof.encode .reset] } = .next (settled.clear.respond .unit) ∧
    Inv { settled with requests := [Sys2Proof.encode .reset] } := by
  have h : ∀ f ∈ [emptyRecord], f.Valid Config.crc := by
    intro f hf
    rw [List.mem_singleton.mp hf]
    have := validateFrame_wireBytes Config.crc 0x02#8 0x00#8 [] emptyRecord.checksum (by decide) []
    rwa [if_pos (show emptyRecord.checksum = crc16 Config.crc (frameInterior 0x02#8 0x00#8 []) from rfl)] at this
  exact ⟨⟨rfl, .inr ⟨rfl, .inl (by decide)⟩, h⟩, rfl, ⟨rfl, .inr ⟨rfl, .inl (by decide)⟩, h⟩⟩

/-- V-DEC-3 with this machine's own checksum. -/
theorem witness_StrayMarkerResync :
    let f := wireFrame Config.crc 0x02#8 0x00#8 (bytes [0x4F, 0x4B])
    let r : FrameRecord := { target := 2, sender := 0, length := 2, payload := bytes [0x4F, 0x4B],
                             checksum := crc16 Config.crc (bytes [2, 0, 2, 0x4F, 0x4B]) }
    (∀ b ∈ bytes [0, 0x13], b ≠ 0x55#8) ∧ validateFrame Config.crc f = .ok r ∧ f.length = r.payload.length + 7 ∧
    (f.getD 2 0#8).toNat + 7 ≤ f.length + 1 ∧ f.getD ((f.getD 2 0#8).toNat + 5) 0#8 ≠ 0xAA#8 ∧
    State.reset.phase = .idle ∧ State.reset.rxbuf = [] := by
  refine ⟨by decide, ?_, rfl, by decide, by decide, rfl, rfl⟩
  have := validateFrame_wireBytes Config.crc 0x02#8 0x00#8 (bytes [0x4F, 0x4B])
    (crc16 Config.crc (bytes [2, 0, 2, 0x4F, 0x4B])) (by decide) []
  rwa [if_pos (show crc16 Config.crc (bytes [2, 0, 2, 0x4F, 0x4B]) =
    crc16 Config.crc (frameInterior 0x02#8 0x00#8 (bytes [0x4F, 0x4B])) from rfl)] at this

/-- V-DEC-9 with 254 more bytes: one fewer than the candidate's 262. -/
theorem witness_StallBehindSpuriousMarker :
    let s : State := { busy with rxbuf := bytes [0x55, 1, 2, 0xFF, 0, 0, 0] }
    s.phase = .idle ∧ s.rxbuf.head? = some 0x55#8 ∧ 4 ≤ s.rxbuf.length ∧
    (s.rxbuf ++ List.replicate 254 0x00#8).length < (s.rxbuf.getD 3 0#8).toNat + 7 := by
  decide +kernel

/-- V-DEC-13's condition. -/
theorem witness_SpuriousCandidateSwallowsFrame :
    State.reset.phase = .idle ∧ State.reset.rxbuf = [] ∧
    crc16 arc [0x01#8, 0x00#8, 0x04#8, 0x55#8, 0x02#8, 0x00#8, 0x00#8] ≠ crc16 arc [0x02#8, 0x00#8, 0x00#8] := by
  decide +kernel

theorem witness_ReadStatusAnswersCounter :
    3 ≤ 3 ∧ (pending [{ op := 0x05#8, operands := [.int ((3 : Nat) : Int)] }]).phase = .idle ∧
    (pending [{ op := 0x05#8, operands := [.int ((3 : Nat) : Int)] }]).requests =
      { op := 0x05#8, operands := [.int ((3 : Nat) : Int)] } :: [] := by decide

/-- Two instances with different parameters; the first one's RESET. -/
theorem witness_InstancesAreIndependent :
    let a : Instance := { params := arc, admitted := by decide, state := pending [Sys2Proof.encode .reset] }
    let b : Instance := { params := { arc with poly := 0x1021#16 }, admitted := by decide, state := busy }
    stepInstance 0 [a, b] = .next [{ a with state := busy.clear.respond .unit }, b] ∧ [a, b][0]? = some a :=
  ⟨rfl, rfl⟩

theorem witness_LineDenotesRequest :
    (∀ op, BytesExpr.eval op [] (.hex [0x55#8]) = .ok [0x55#8]) ∧
    (∀ op, BytesExpr.eval op [] (.text ['A', '?']) = .ok [0x41#8, 0x3F#8]) ∧
    Bindings.find "w" [("w", .wire [0x55#8])] = some (.wire [0x55#8]) := ⟨fun _ => rfl, fun _ => rfl, rfl⟩

/-- A host session at rest. -/
def session : Session := { machine := busy, bindings := [("x", .count 1)] }

/-- P4's line 2, and a READ_STATUS line. -/
theorem witness_LinesBindResults :
    (∃ v, runLine step (.op (some "x") (.encode 0 0 (.text ['X']))) session = .next v ∧
      v.machine.response = some (.error (.invalidAddress .target 0))) ∧
    (∃ v, runLine step (.op (some "x") (.readStatus .bytesRx)) session = .next v ∧
      v.machine.response = some (.ok (.count 12))) ∧ "y" ≠ "x" :=
  ⟨⟨_, rfl, rfl⟩, ⟨_, rfl, rfl⟩, by decide⟩

/-- P4's line 5: "LCD1". -/
theorem witness_EncodeqExpands : asciiBytes ['L', 'C', 'D', '1'] = some (bytes [0x4C, 0x43, 0x44, 0x31]) := by decide

theorem witness_LoopbackExpands :
    session.machine.phase = .idle ∧ BytesExpr.eval 0x01#8 session.bindings (.rep 0x41#8 3) = .ok (bytes [0x41, 0x41, 0x41]) ∧
    ((1 : Int) ≤ 1 ∧ (1 : Int) ≤ 127 ∧ (bytes [0x41, 0x41, 0x41]).length ≤ 255) ∧
    ¬ ((1 : Int) ≤ 128 ∧ (128 : Int) ≤ 127 ∧ (bytes [0x41, 0x41, 0x41]).length ≤ 255) := by decide

end Sys2Proof.Tests
end

section
/-! PROOFS of 00_scope.md: the constraint on the machine's CRC polynomial, and what a step runs. -/

namespace Sys2Proof.Machine

/-- The polynomial as a number: one more than a number below 65535 does not wrap in 16 bits (00_scope.md R4). -/
theorem crc16Poly_toNat : Config.crc16Poly.toNat = Config.crc16PolyLessOne.val + 1 := by
  have hlt : Config.crc16PolyLessOne.val < 65535 := Config.crc16PolyLessOne.isLt
  rw [Config.crc16Poly, BitVec.toNat_ofNat]
  exact Nat.mod_eq_of_lt (by omega)

/-- The machine's own parameters are ones R4 admits. -/
theorem config_crc_admitted : Config.crc.Admitted := by
  intro hzero
  have hnat : Config.crc16Poly.toNat = 0 := congrArg BitVec.toNat hzero
  rw [crc16Poly_toNat] at hnat
  omega

/-- Settles O3: the machine's parameters are admitted, the polynomial being a successor that does not wrap. -/
theorem configPolynomialNonzero : Obligations.ConfigPolynomialNonzero := config_crc_admitted

theorem State.takeRequest_of_cons {s : State} {r : Request} {rest : List Request} (hr : s.requests = r :: rest) :
    s.takeRequest = { s with requests := rest } := by
  rw [State.takeRequest, hr, List.tail_cons]

/-- At PHASE IDLE the interface runs the operation the next request decodes to, under any parameters and any meanings
of the operations (10_state.md R35). -/
theorem serveWith_of_decode_ok (p : CrcParams) (run : Instr → State → Outcome) {s : State} {r : Request}
    {rest : List Request} {i : Instr} (hp : s.phase = .idle) (hr : s.requests = r :: rest) (hd : decode r = .ok i) :
    serveWith p run s = run i { s with requests := rest } := by
  simp only [serveWith, hp, hr, hd, State.takeRequest_of_cons hr]

/-- Settles O7: a step is the interface with `exec` as the operations' meaning. -/
theorem stepRunsDecodedRequest : Obligations.StepRunsDecodedRequest := by
  intro s r rest i hp hr hd
  exact serveWith_of_decode_ok Config.crc exec hp hr hd

end Sys2Proof.Machine
end

section
/-! PROOFS of 10_state.md: when each operation completes and with which next state, what the extraction loop of a PUSH
keeps, and from these the invariant, the three ways RXBUF changes, the growth of FRAME_OUT and the counters' part. -/

namespace Sys2Proof.Machine

/-! ### What a completed operation leaves -/

/-- The end of a codec operation sets the result, the same one in every state (10_state.md R32). -/
theorem State.answer_sets_response (x : Except ErrorResult Value) :
    ∃ r : Response, ∀ s : State, s.answer x = { s with response := some r } := by
  cases x with
  | ok v => exact ⟨.ok v, fun _ => rfl⟩
  | error e => exact ⟨.error e, fun _ => rfl⟩

/-- The operation completes in every state with one and the same result, and writes nothing else. -/
def SetsOnlyResponse (i : Instr) : Prop :=
  ∃ r : Response, ∀ s : State, exec i s = .next { s with response := some r }

theorem SetsOnlyResponse.eq_of_next {i : Instr} {s t : State} (hi : SetsOnlyResponse i) (h : exec i s = .next t) :
    ∃ r : Response, t = { s with response := some r } := by
  obtain ⟨r, hr⟩ := hi
  exact ⟨r, Host.Outcome.next.inj (h.symm.trans (hr s))⟩

theorem setsOnlyResponse_encode (target sender : Int) (payload : List Byte) :
    SetsOnlyResponse (.encode target sender payload) := by
  obtain ⟨r, hr⟩ := State.answer_sets_response ((encodeFrame Config.crc target sender payload).map .wire)
  exact ⟨r, fun s => congrArg Host.Outcome.next (hr s)⟩

theorem setsOnlyResponse_validate (cand : List Byte) : SetsOnlyResponse (.validate cand) := by
  obtain ⟨r, hr⟩ := State.answer_sets_response ((validateFrame Config.crc cand).map .record)
  exact ⟨r, fun s => congrArg Host.Outcome.next (hr s)⟩

theorem setsOnlyResponse_crc (data : List Byte) : SetsOnlyResponse (.crc data) :=
  ⟨.ok (.crc (crc16 Config.crc data)), fun _ => rfl⟩

/-- PUSH completes exactly at PHASE IDLE (41_decoder.md R130, R139). -/
theorem exec_push_next_iff {chunk : List Byte} {s t : State} :
    exec (.push chunk) s = .next t ↔ s.phase = .idle ∧ runPushWith Config.crc chunk s = t := by
  cases hp : s.phase <;> simp [exec, execPush, pushWith, hp]

/-- RESET completes exactly at PHASE IDLE (42_control.md R172, 41_decoder.md R139). -/
theorem exec_reset_next_iff {s t : State} :
    exec .reset s = .next t ↔ s.phase = .idle ∧ s.clear.respond .unit = t := by
  cases hp : s.phase <;> simp [exec, execReset, hp]

/-- READ_STATUS completes exactly for an index that names a register (42_control.md R170, R171). -/
theorem exec_readStatus_next_iff {n : Nat} {s t : State} :
    exec (.readStatus n) s = .next t ↔ ∃ v, s.statusRegister n = some v ∧ s.respond (.count v) = t := by
  cases hv : s.statusRegister n <;> simp [exec, execReadStatus, hv]

/-- Which indices name a register is no matter of the state (10_state.md R34). -/
theorem State.exists_statusRegister_iff {s : State} {n : Nat} :
    (∃ v, s.statusRegister n = some v) ↔ n < STATUS_INDICES := by
  match n with
  | 0 | 1 | 2 => simp [State.statusRegister]
  | n + 3 => simp [State.statusRegister]

/-- Everything an operation that completes can do: run a PUSH, clear, or set the result only. -/
theorem exec_next_cases {i : Instr} {s t : State} (h : exec i s = .next t) :
    (∃ chunk, i = .push chunk ∧ s.phase = .idle ∧ t = runPushWith Config.crc chunk s) ∨
    (i = .reset ∧ s.phase = .idle ∧ t = s.clear.respond .unit) ∨
    ((∀ chunk, i ≠ .push chunk) ∧ i ≠ .reset ∧ ∃ r, t = { s with response := some r }) := by
  cases i with
  | encode target sender payload =>
    exact .inr (.inr ⟨by simp, by simp, (setsOnlyResponse_encode target sender payload).eq_of_next h⟩)
  | validate cand => exact .inr (.inr ⟨by simp, by simp, (setsOnlyResponse_validate cand).eq_of_next h⟩)
  | crc data => exact .inr (.inr ⟨by simp, by simp, (setsOnlyResponse_crc data).eq_of_next h⟩)
  | push chunk =>
    obtain ⟨hidle, ht⟩ := exec_push_next_iff.mp h
    exact .inl ⟨chunk, rfl, hidle, ht.symm⟩
  | readStatus n =>
    obtain ⟨v, -, ht⟩ := exec_readStatus_next_iff.mp h
    exact .inr (.inr ⟨by simp, by simp, .ok (.count v), ht.symm⟩)
  | reset =>
    obtain ⟨hidle, ht⟩ := exec_reset_next_iff.mp h
    exact .inr (.inl ⟨rfl, hidle, ht.symm⟩)

/-! ### What the extraction loop does to RXBUF, to FRAME_OUT and to the records -/

theorem resync_suffix (buf : List Byte) : resync buf <:+ buf := by
  obtain ⟨noise, hn, -⟩ := resync_split buf
  exact ⟨noise, hn.symm⟩

/-- An extraction step removes bytes from the front of RXBUF only (10_state.md R21). -/
theorem extractStep_rxbuf_suffix (p : CrcParams) (s : State) : (extractStepWith p s).2.rxbuf <:+ s.rxbuf := by
  have hs := resync_suffix s.rxbuf
  rcases extractStep_cases p s with ⟨-, he⟩ | ⟨-, ⟨-, he⟩ | ⟨-, -, he⟩ | ⟨-, -, he⟩⟩ <;> rw [he]
  · exact hs
  all_goals exact (List.drop_suffix _ _).trans hs

theorem extractLoop_rxbuf_suffix (p : CrcParams) (n : Nat) (s : State) :
    (extractLoopWith p n s).2.rxbuf <:+ s.rxbuf :=
  extractLoop_keeps (P := fun x => x.rxbuf <:+ s.rxbuf) (fun x hx => (extractStep_rxbuf_suffix p x).trans hx) n s
    (List.suffix_refl _)

theorem runPush_rxbuf_suffix (p : CrcParams) (chunk : List Byte) (s : State) :
    (runPushWith p chunk s).rxbuf <:+ s.rxbuf ++ chunk :=
  extractLoop_rxbuf_suffix p _ (beginPush chunk s)

/-- An extraction step emits at the end of FRAME_OUT (10_state.md R25). -/
theorem extractStep_frameOut_prefix (p : CrcParams) (s : State) : s.frameOut <+: (extractStepWith p s).2.frameOut := by
  rcases extractStep_cases p s with ⟨-, he⟩ | ⟨-, ⟨-, he⟩ | ⟨-, -, he⟩ | ⟨-, -, he⟩⟩ <;> rw [he]
  exact List.prefix_append _ _

theorem extractTransition_frameOut (p : CrcParams) (s : State) :
    (extractTransitionWith p s).frameOut = (extractStepWith p s).2.frameOut := by
  unfold extractTransitionWith
  split <;> rename_i he <;> rw [he]
  rfl

theorem runPush_frameOut_prefix (p : CrcParams) (chunk : List Byte) (s : State) :
    s.frameOut <+: (runPushWith p chunk s).frameOut :=
  extractLoop_keeps (P := fun x => s.frameOut <+: x.frameOut) (fun x hx => hx.trans (extractStep_frameOut_prefix p x)) _
    (beginPush chunk s) (List.prefix_refl _)

/-- The record of a whole candidate with the right end marker and checksum is valid (41_decoder.md R147). -/
theorem Whole.record_valid {p : CrcParams} {buf : List Byte} (h : Whole buf)
    (he : byteAt buf (lengthField buf + 6) = ENDM)
    (hx : transmitted buf (lengthField buf) = computed p buf (lengthField buf)) :
    (recordOf buf (lengthField buf)).Valid p :=
  (FrameRecord.valid_iff h.record_length).mpr (hx.trans (h.computed_eq he p))

/-- An extraction step emits valid records only. -/
theorem extractStep_keeps_valid (p : CrcParams) (s : State) (h : ∀ f ∈ s.frameOut, f.Valid p) :
    ∀ f ∈ (extractStepWith p s).2.frameOut, f.Valid p := by
  rcases extractStep_cases p s with ⟨-, he⟩ | ⟨hw, ⟨-, he⟩ | ⟨-, -, he⟩ | ⟨hend, hx, he⟩⟩ <;> rw [he]
  case inr.inr.inr =>
    intro f hf
    rcases List.mem_append.mp hf with hf | hf
    · exact h f hf
    · rw [List.mem_singleton.mp hf]
      exact hw.record_valid hend hx
  all_goals exact h

theorem runPush_keeps_valid (p : CrcParams) (chunk : List Byte) (s : State) (h : ∀ f ∈ s.frameOut, f.Valid p) :
    ∀ f ∈ (runPushWith p chunk s).frameOut, f.Valid p :=
  extractLoop_keeps (P := fun x => ∀ f ∈ x.frameOut, f.Valid p) (extractStep_keeps_valid p) _ (beginPush chunk s) h

/-! ### The loop stops, and stops on a quiescent buffer -/

theorem extractStep_stop_quiescent {p : CrcParams} {s t : State} (h : extractStepWith p s = (.stop, t)) :
    Quiescent t.rxbuf := by
  rcases extractStep_cases p s with ⟨hq, he⟩ | ⟨-, ⟨-, he⟩ | ⟨-, -, he⟩ | ⟨-, -, he⟩⟩ <;> rw [he] at h <;> cases h
  exact hq

/-- A bound larger than the buffer is enough for the loop to stop, since a CONTINUE removes a byte, and the step that
stops leaves a quiescent buffer (41_decoder.md R140, R141). -/
theorem extractLoop_stops_quiescent (p : CrcParams) {n : Nat} {s : State} (hn : s.rxbuf.length < n) :
    (extractLoopWith p n s).1 = .stop ∧ Quiescent (extractLoopWith p n s).2.rxbuf := by
  induction n generalizing s with
  | zero => omega
  | succ n ih =>
    rcases he : extractStepWith p s with ⟨_ | _, t⟩
    case stop =>
      rw [extractLoop_succ_stop he]
      exact ⟨rfl, extractStep_stop_quiescent he⟩
    case again =>
      have hlt := extractStep_again_shorter he
      rw [extractLoop_succ_again he]
      exact ih (by omega)

theorem runPush_quiescent (p : CrcParams) (chunk : List Byte) (s : State) :
    Quiescent (runPushWith p chunk s).rxbuf :=
  (extractLoop_stops_quiescent p (s := beginPush chunk s) (Nat.lt_succ_self _)).2

/-! ### The counters decide nothing -/

/-- An extraction step reads no counter: it returns the same signal and writes the same buffer and records. -/
theorem extractStep_sameButCounters (p : CrcParams) {s s' : State} (h : SameButCounters s s') :
    (extractStepWith p s').1 = (extractStepWith p s).1 ∧
    SameButCounters (extractStepWith p s).2 (extractStepWith p s').2 := by
  obtain ⟨hrx, hfo, hph, hrq⟩ := h
  unfold extractStepWith
  simp only [hrx]
  -- the branch taken and the bytes judged depend on RXBUF alone, so both states are in the same branch
  split_ifs <;> exact ⟨rfl, by constructor <;> simp [hfo, hph, hrq]⟩

theorem extractLoop_sameButCounters (p : CrcParams) (n : Nat) {s s' : State} (h : SameButCounters s s') :
    SameButCounters (extractLoopWith p n s).2 (extractLoopWith p n s').2 := by
  induction n generalizing s s' with
  | zero => exact h
  | succ n ih =>
    obtain ⟨hsig, hst⟩ := extractStep_sameButCounters p h
    rcases he : extractStepWith p s with ⟨sig, t⟩
    rcases he' : extractStepWith p s' with ⟨sig', t'⟩
    rw [he, he'] at hsig hst
    obtain rfl : sig' = sig := hsig
    cases sig' with
    | stop => rwa [extractLoop_succ_stop he, extractLoop_succ_stop he']
    | again =>
      rw [extractLoop_succ_again he, extractLoop_succ_again he']
      exact ih hst

theorem runPush_sameButCounters (p : CrcParams) (chunk : List Byte) {s s' : State} (h : SameButCounters s s') :
    SameButCounters (runPushWith p chunk s) (runPushWith p chunk s') := by
  have hb : SameButCounters (beginPush chunk s) (beginPush chunk s') :=
    ⟨congrArg (· ++ chunk) h.rxbuf, h.frameOut, rfl, h.requests⟩
  obtain ⟨hrx, hfo, -, hrq⟩ := extractLoop_sameButCounters p ((beginPush chunk s).rxbuf.length + 1) hb
  simp only [runPushWith, hb.rxbuf]
  exact ⟨hrx, hfo, rfl, hrq⟩

/-- Writing the result port keeps the agreement of two states. -/
theorem SameButCounters.with_response {s s' : State} (h : SameButCounters s s') (r r' : Option Response) :
    SameButCounters { s with response := r } { s' with response := r' } :=
  ⟨h.rxbuf, h.frameOut, h.phase, h.requests⟩

/-- An operation with one result for all states gives two agreeing states that result, and they agree again. -/
theorem SameButCounters.exec_of_setsOnlyResponse {i : Instr} {s s' t : State} (h : SameButCounters s s')
    (hi : SetsOnlyResponse i) (ht : exec i s = .next t) :
    ∃ t', exec i s' = .next t' ∧ SameButCounters t t' ∧ t'.response = t.response := by
  obtain ⟨r, hr⟩ := hi
  obtain rfl := Host.Outcome.next.inj ((hr s).symm.trans ht)
  exact ⟨_, hr s', h.with_response _ _, rfl⟩

/-! ### The obligations -/

/-- Settles O51: a step at PHASE IDLE does nothing or runs one operation; a PUSH stops on a quiescent buffer and emits
valid records only, RESET empties the buffer, and the other operations touch only the result. -/
theorem stepKeepsInvariant : Obligations.StepKeepsInvariant := by
  rintro s t ⟨hidle, hq, hval⟩ h
  rcases step_next_cases h with ⟨-, -, rfl⟩ | ⟨r, rest, i, -, -, -, hex⟩ | ⟨hp, -, -⟩
  · exact ⟨hidle, hq, hval⟩
  · rcases exec_next_cases hex with ⟨chunk, -, -, rfl⟩ | ⟨-, -, rfl⟩ | ⟨-, -, r, rfl⟩
    · exact ⟨rfl, runPush_quiescent _ _ _, runPush_keeps_valid _ _ _ hval⟩
    · exact ⟨rfl, .inl rfl, hval⟩
    · exact ⟨hidle, hq, hval⟩
  · rw [hidle] at hp
    cases hp

/-- Settles O20: the result of a codec operation is computed from its operands, and `answer` writes nothing else. -/
theorem codecTouchesNoState : Obligations.CodecTouchesNoState := by
  rintro i (⟨target, sender, payload, rfl⟩ | ⟨cand, rfl⟩ | ⟨data, rfl⟩)
  · exact setsOnlyResponse_encode target sender payload
  · exact setsOnlyResponse_validate cand
  · exact setsOnlyResponse_crc data

/-- Settles O37: the extraction loop leaves a suffix of the buffer it is given. -/
theorem rxbufChangesThreeWays : Obligations.RxbufChangesThreeWays := by
  intro i s t h
  rcases exec_next_cases h with ⟨chunk, rfl, -, rfl⟩ | ⟨rfl, -, rfl⟩ | ⟨hpush, hreset, r, rfl⟩
  · have hsuf := runPush_rxbuf_suffix Config.crc chunk s
    exact .inl ⟨chunk, _, rfl, Nat.sub_le _ _, List.suffix_iff_eq_drop.mp hsuf⟩
  · exact .inr (.inl ⟨rfl, rfl⟩)
  · exact .inr (.inr ⟨hpush, hreset, rfl⟩)

/-- Settles O38: an extraction step leaves FRAME_OUT or extends it at its end, and from PHASE IDLE only a PUSH runs
extraction steps. -/
theorem frameOutAppendOnly : Obligations.FrameOutAppendOnly := by
  intro s t h
  rcases step_next_cases h with ⟨-, -, rfl⟩ | ⟨r, rest, i, -, hr, hd, hex⟩ | ⟨hp, -, rfl⟩
  · exact ⟨[], by simp⟩
  · rcases exec_next_cases hex with ⟨chunk, rfl, -, rfl⟩ | ⟨-, -, rfl⟩ | ⟨-, -, r, rfl⟩
    · obtain ⟨fs, hfs⟩ := runPush_frameOut_prefix Config.crc chunk { s with requests := rest }
      exact ⟨fs, hfs.symm, fun _ hno => absurd hd (hno r rest chunk hr)⟩
    · exact ⟨[], by simp⟩
    · exact ⟨[], by simp⟩
  · obtain ⟨fs, hfs⟩ := extractStep_frameOut_prefix Config.crc s
    refine ⟨fs, (extractTransition_frameOut Config.crc s).trans hfs.symm, fun hidle => ?_⟩
    rw [hp] at hidle
    cases hidle

/-- Settles O39: PHASE and the index decide whether an operation completes, and no extraction step reads a counter. -/
theorem countersAreNotBehavioral : Obligations.CountersAreNotBehavioral := by
  intro i s s' t h ht
  have codec (hi : SetsOnlyResponse i) :
      ∃ t', exec i s' = .next t' ∧ SameButCounters t t' ∧ ((∀ n, i ≠ .readStatus n) → t'.response = t.response) := by
    obtain ⟨t', ht', hsame, hresp⟩ := h.exec_of_setsOnlyResponse hi ht
    exact ⟨t', ht', hsame, fun _ => hresp⟩
  cases i with
  | encode target sender payload => exact codec (setsOnlyResponse_encode target sender payload)
  | validate cand => exact codec (setsOnlyResponse_validate cand)
  | crc data => exact codec (setsOnlyResponse_crc data)
  | push chunk =>
    obtain ⟨hidle, rfl⟩ := exec_push_next_iff.mp ht
    exact ⟨_, exec_push_next_iff.mpr ⟨h.phase.trans hidle, rfl⟩, runPush_sameButCounters Config.crc chunk h,
      fun _ => rfl⟩
  | readStatus n =>
    obtain ⟨v, hv, rfl⟩ := exec_readStatus_next_iff.mp ht
    obtain ⟨v', hv'⟩ : ∃ v', s'.statusRegister n = some v' :=
      State.exists_statusRegister_iff.mpr (State.exists_statusRegister_iff.mp ⟨v, hv⟩)
    exact ⟨_, exec_readStatus_next_iff.mpr ⟨v', hv', rfl⟩, h.with_response _ _, fun hno => absurd rfl (hno n)⟩
  | reset =>
    obtain ⟨hidle, rfl⟩ := exec_reset_next_iff.mp ht
    exact ⟨_, exec_reset_next_iff.mpr ⟨h.phase.trans hidle, rfl⟩, ⟨rfl, h.frameOut, rfl, h.requests⟩, fun _ => rfl⟩

/-- Settles O1: the fields of the reset state, by definition. -/
theorem resetHasSpecValues : Obligations.ResetHasSpecValues := ⟨rfl, rfl, rfl, rfl, rfl, rfl⟩

/-- Settles O50: the reset buffer is empty and no record has been emitted. -/
theorem invariantAtReset : Obligations.InvariantAtReset where
  idle := rfl
  quiescent := .inl rfl
  emitted := fun _ hf => absurd hf List.not_mem_nil

end Sys2Proof.Machine
end

section
/-! PROOFS of 20_memory.md: the bytes that hold the checksum of an encoded frame, and what a step of one instance leaves
of the others. -/

namespace Sys2Proof.Machine

/-! ### What ENCODE answers -/

/-- ENCODE succeeds exactly when its three checks pass, and then gives the wire frame (40_codec.md R110, R114). -/
theorem encodeFrame_ok_iff {p : CrcParams} {target sender : Int} {payload w : List Byte} :
    encodeFrame p target sender payload = .ok w ↔
      (TARGET_MIN ≤ target ∧ target ≤ TARGET_MAX) ∧ sender = SENDER_ID ∧ payload.length ≤ LEN_MAX ∧
      w = wireFrame p (BitVec.ofInt 8 target) (BitVec.ofInt 8 sender) payload := by
  unfold encodeFrame
  split_ifs with ht hs hl
  · exact iff_of_false nofun fun ⟨_, hsender, _⟩ => hs hsender
  · exact iff_of_false nofun fun ⟨_, _, hlen, _⟩ => Nat.not_le.mpr hl hlen
  · simp [ht, not_not.mp hs, Nat.not_lt.mp hl, eq_comm]
  · exact iff_of_false nofun fun ⟨hrange, _⟩ => ht hrange

/-- A wire frame that ENCODE leaves as its result is the one `encodeFrame` gives. -/
theorem encodeFrame_of_exec_encode {target sender : Int} {payload w : List Byte} {s u : State}
    (hx : exec (.encode target sender payload) s = .next u) (hw : u.response = some (.ok (.wire w))) :
    encodeFrame Config.crc target sender payload = .ok w := by
  obtain rfl : s.answer ((encodeFrame Config.crc target sender payload).map .wire) = u := Host.Outcome.next.inj hx
  cases he : encodeFrame Config.crc target sender payload with
  | error e => simp [he, Except.map] at hw
  | ok v => simpa [he, Except.map] using hw

/-! ### The checksum bytes of a wire frame -/

/-- The checksum covers offsets 1 to 3+L of the frame that carries it (30_encoding.md R67). -/
theorem computed_wireFrame (p : CrcParams) (target sender : Byte) (payload : List Byte) :
    computed p (wireFrame p target sender payload) payload.length = crc16 p (frameInterior target sender payload) :=
  congrArg (crc16 p) (slice_wireBytes_interior target sender payload _)

theorem byteAt_wireFrame_hi (p : CrcParams) (target sender : Byte) (payload : List Byte) :
    byteAt (wireFrame p target sender payload) (payload.length + 4) =
      hi8 (computed p (wireFrame p target sender payload) payload.length) := by
  rw [computed_wireFrame, wireFrame, byteAt_wireBytes_hi]

theorem byteAt_wireFrame_lo (p : CrcParams) (target sender : Byte) (payload : List Byte) :
    byteAt (wireFrame p target sender payload) (payload.length + 5) =
      lo8 (computed p (wireFrame p target sender payload) payload.length) := by
  rw [computed_wireFrame, wireFrame, byteAt_wireBytes_lo]

/-- The two checksum bytes, read back as hi * 256 + lo, are the checksum (20_memory.md R42). -/
theorem wireFrame_checksum_toNat (p : CrcParams) (target sender : Byte) (payload : List Byte) :
    (byteAt (wireFrame p target sender payload) (payload.length + 4)).toNat * 256 +
        (byteAt (wireFrame p target sender payload) (payload.length + 5)).toNat =
      (computed p (wireFrame p target sender payload) payload.length).toNat := by
  rw [← u16_toNat, byteAt_wireFrame_hi, byteAt_wireFrame_lo, u16_hi8_lo8]

/-! ### What a step of one instance does to the list -/

/-- A step of instance k does nothing when there is no such instance, and otherwise replaces the state of that one by
its own next state (20_memory.md R54). -/
theorem stepInstance_next_cases {k : Nat} {sys sys' : List Instance} (h : stepInstance k sys = .next sys') :
    (sys[k]? = none ∧ sys' = sys) ∨
    (∃ x t, sys[k]? = some x ∧ stepWith x.params x.state = .next t ∧ sys' = sys.set k { x with state := t }) := by
  unfold stepInstance at h
  split at h
  · rename_i hk
    exact .inl ⟨hk, (Host.Outcome.next.inj h).symm⟩
  · rename_i x hk
    split at h
    · rename_i t ht
      exact .inr ⟨x, t, hk, ht, (Host.Outcome.next.inj h).symm⟩
    all_goals cases h

/-! ### The obligations -/

/-- Settles O19: ENCODE's result is a wire frame, whose offsets 4+L and 5+L are the halves of the checksum of its
interior, and the big-endian pair of a word's halves is that word. -/
theorem checksumIsBigEndian : Obligations.ChecksumIsBigEndian := by
  intro t payload w s u hx hw
  obtain ⟨-, -, -, rfl⟩ := encodeFrame_ok_iff.mp (encodeFrame_of_exec_encode hx hw)
  simp only [Nat.add_comm _ payload.length]
  exact ⟨byteAt_wireFrame_hi _ _ _ _, byteAt_wireFrame_lo _ _ _ _, wireFrame_checksum_toNat _ _ _ _⟩

/-- Settles O56: a step of instance k sets entry k of the list alone, to the same parameters and its own next state. -/
theorem instancesAreIndependent : Obligations.InstancesAreIndependent := by
  intro k sys sys' h
  rcases stepInstance_next_cases h with ⟨hk, rfl⟩ | ⟨x, t, hk, ht, rfl⟩
  · exact ⟨rfl, fun _ _ => rfl, fun x hx => absurd (hk.symm.trans hx) (by simp)⟩
  · refine ⟨List.length_set, fun j hj => List.getElem?_set_ne hj.symm, fun x' hx' => ?_⟩
    obtain rfl : x = x' := Option.some.inj (hk.symm.trans hx')
    have hset : (sys.set k { x with state := t })[k]? = some { x with state := t } := by
      simp [List.getElem?_set_self', hk]
    exact ⟨_, hset, rfl, ht⟩

end Sys2Proof.Machine
end

section
/-! PROOFS of 30_encoding.md: the operand forms and the decoder, each as an `↔` with the encoder's side; how the
interface answers a request it rejects; what VALIDATE accepts; and what the assembler's lines bind and denote. -/

namespace Sys2Proof.Machine

/-! ### The operand forms (R77) -/

/-- Exactly the unsigned values of bytes are read as bytes. -/
theorem byteOfInt_eq_some_iff {v : Int} {b : Byte} : byteOfInt v = some b ↔ v = intOfByte b := by
  have hb := b.isLt
  unfold byteOfInt intOfByte
  split_ifs with h
  · rw [Option.some.injEq, ← BitVec.toNat_inj, BitVec.toNat_ofInt]
    omega
  · exact iff_of_false nofun (by omega)

theorem bytesOfInts_eq_some_iff {vs : List Int} {bs : List Byte} :
    bytesOfInts vs = some bs ↔ vs = bs.map intOfByte := by
  induction vs generalizing bs with
  | nil => cases bs <;> simp [bytesOfInts]
  | cons v vs ih =>
    have hcons : bytesOfInts (v :: vs) = some bs ↔
        ∃ c cs, byteOfInt v = some c ∧ bytesOfInts vs = some cs ∧ c :: cs = bs := by
      cases hv : byteOfInt v <;> cases hvs : bytesOfInts vs <;> simp [bytesOfInts, hv, hvs]
    simp only [hcons, byteOfInt_eq_some_iff, ih]
    cases bs <;> simp

theorem Operand.asInt_eq_some_iff {o : Operand} {v : Int} : o.asInt = some v ↔ o = .int v := by
  cases o <;> simp [Operand.asInt]

theorem Operand.asNat_eq_some_iff {o : Operand} {n : Nat} : o.asNat = some n ↔ o = .ofNat n := by
  cases o with
  | int v =>
    simp only [Operand.asNat, Operand.ofNat, Operand.int.injEq]
    split_ifs with h
    · rw [Option.some.injEq]
      omega
    · exact iff_of_false nofun (by omega)
  | seq es => simp [Operand.asNat, Operand.ofNat]
  | other shape => simp [Operand.asNat, Operand.ofNat]

theorem Operand.asBytes_eq_some_iff {o : Operand} {bs : List Byte} : o.asBytes = some bs ↔ o = .ofBytes bs := by
  cases o <;> simp [Operand.asBytes, Operand.ofBytes, bytesOfInts_eq_some_iff]

/-! ### The decoder (R75 to R77) -/

theorem decodeEncode_eq_some_iff {ops : List Operand} {i : Instr} :
    decodeEncode ops = some i ↔ ∃ t sd p, ops = [.int t, .int sd, .ofBytes p] ∧ i = .encode t sd p := by
  match ops with
  | [t, sd, p] =>
    have hread : decodeEncode [t, sd, p] = some i ↔
        ∃ a b c, (t.asInt = some a ∧ sd.asInt = some b ∧ p.asBytes = some c) ∧ i = .encode a b c := by
      cases ht : t.asInt <;> cases hs : sd.asInt <;> cases hp : p.asBytes <;>
        simp [decodeEncode, ht, hs, hp, eq_comm]
    simp [hread, Operand.asInt_eq_some_iff, Operand.asBytes_eq_some_iff]
  | [] | [_] | [_, _] | _ :: _ :: _ :: _ :: _ => simp [decodeEncode]

theorem decodeBytes_eq_some_iff {make : List Byte → Instr} {ops : List Operand} {i : Instr} :
    decodeBytes make ops = some i ↔ ∃ bs, ops = [.ofBytes bs] ∧ i = make bs := by
  match ops with
  | [b] =>
    have hread : decodeBytes make [b] = some i ↔ ∃ bs, b.asBytes = some bs ∧ i = make bs := by
      cases hb : b.asBytes <;> simp [decodeBytes, hb, eq_comm]
    simp [hread, Operand.asBytes_eq_some_iff]
  | [] | _ :: _ :: _ => simp [decodeBytes]

theorem decodeReadStatus_eq_some_iff {ops : List Operand} {i : Instr} :
    decodeReadStatus ops = some i ↔ ∃ n, ops = [.ofNat n] ∧ i = .readStatus n := by
  match ops with
  | [o] =>
    have hread : decodeReadStatus [o] = some i ↔ ∃ n, o.asNat = some n ∧ i = .readStatus n := by
      cases ho : o.asNat <;> simp [decodeReadStatus, ho, eq_comm]
    simp [hread, Operand.asNat_eq_some_iff]
  | [] | _ :: _ :: _ => simp [decodeReadStatus]

theorem decodeReset_eq_some_iff {ops : List Operand} {i : Instr} :
    decodeReset ops = some i ↔ ops = [] ∧ i = .reset := by
  cases ops <;> simp [decodeReset, eq_comm]

/-- Which op codes are reserved is no matter of the operands (R76). -/
theorem decodeByOp_eq_none_iff {op : Byte} {ops : List Operand} :
    decodeByOp op ops = none ↔ op.toNat = 0 ∨ 7 ≤ op.toNat := by
  unfold decodeByOp
  split_ifs with h1 h2 h3 h4 h5 h6
  case neg =>
    simp only [opEncode, opValidate, opCrc, opPush, opReadStatus, opReset, ← BitVec.toNat_inj,
      BitVec.toNat_ofNat] at h1 h2 h3 h4 h5 h6
    exact iff_of_true rfl (by omega)
  all_goals
    subst op
    exact iff_of_false nofun (by decide)

/-- Op code and operands select an operation exactly when they are the two fields of its request. -/
theorem decodeByOp_eq_some_some_iff {op : Byte} {ops : List Operand} {i : Instr} :
    decodeByOp op ops = some (some i) ↔ { op := op, operands := ops } = encode i := by
  constructor
  · intro h
    unfold decodeByOp at h
    split_ifs at h <;> subst op <;> rw [Option.some.injEq] at h
    · obtain ⟨t, sd, p, rfl, rfl⟩ := decodeEncode_eq_some_iff.mp h
      rfl
    iterate 3
      · obtain ⟨bs, rfl, rfl⟩ := decodeBytes_eq_some_iff.mp h
        rfl
    · obtain ⟨n, rfl, rfl⟩ := decodeReadStatus_eq_some_iff.mp h
      rfl
    · obtain ⟨rfl, rfl⟩ := decodeReset_eq_some_iff.mp h
      rfl
  · intro h
    obtain ⟨rfl, rfl⟩ := Request.mk.inj h
    cases i with
    | encode t sd p => exact congrArg some (decodeEncode_eq_some_iff.mpr ⟨t, sd, p, rfl, rfl⟩)
    | validate c => exact congrArg some (decodeBytes_eq_some_iff.mpr ⟨c, rfl, rfl⟩)
    | crc d => exact congrArg some (decodeBytes_eq_some_iff.mpr ⟨d, rfl, rfl⟩)
    | push c => exact congrArg some (decodeBytes_eq_some_iff.mpr ⟨c, rfl, rfl⟩)
    | readStatus n => exact congrArg some (decodeReadStatus_eq_some_iff.mpr ⟨n, rfl, rfl⟩)
    | reset => rfl

/-- The decoder is the inverse of the encoder, and rejects everything else. -/
theorem decode_eq_ok_iff {r : Request} {i : Instr} : decode r = .ok i ↔ r = encode i := by
  rw [← decodeByOp_eq_some_some_iff]
  unfold decode
  split <;> rename_i hd <;> simp [hd]

theorem decode_of_reserved {r : Request} (h : r.op.toNat = 0 ∨ 7 ≤ r.op.toNat) :
    decode r = .error (.reservedOpcode r.op) := by
  simp only [decode, decodeByOp_eq_none_iff.mpr h]

theorem decode_of_malformed {r : Request} (h : decodeByOp r.op r.operands = some none) :
    decode r = .error (.malformedOperand r.op) := by
  simp only [decode, h]

/-- The interface refuses a request the decoder rejects, by the decoder's reason (60_exceptions.md R207). -/
theorem serveWith_of_decode_error (p : CrcParams) (run : Instr → State → Outcome) {s : State} {r : Request}
    {rest : List Request} {e : Reject} (hp : s.phase = .idle) (hr : s.requests = r :: rest)
    (hd : decode r = .error e) : serveWith p run s = .refused (refusalOf e) := by
  simp only [serveWith, hp, hr, hd]

theorem step_of_malformed {s : State} {r : Request} {rest : List Request} (hp : s.phase = .idle)
    (hr : s.requests = r :: rest) (h : decodeByOp r.op r.operands = some none) :
    step s = .refused (.malformedOperand r.op) :=
  serveWith_of_decode_error Config.crc exec hp hr (decode_of_malformed h)

/-- A sequence with one element outside 0..255 is no byte sequence (R77). -/
theorem Operand.seq_ne_ofBytes {u w : List Int} {v : Int} (hv : v < 0 ∨ 255 < v) (bs : List Byte) :
    Operand.seq (u ++ v :: w) ≠ .ofBytes bs := by
  intro h
  have hmem : v ∈ bs.map intOfByte := Operand.seq.inj h ▸ List.mem_append_right u List.mem_cons_self
  obtain ⟨b, -, rfl⟩ := List.mem_map.mp hmem
  have hb := b.isLt
  unfold intOfByte at hv
  omega

/-! ### What VALIDATE accepts (R70) -/

/-- VALIDATE accepts exactly the candidates that are whole, end with the end marker and carry their own checksum, and
gives their record (40_codec.md R120). -/
theorem validateFrame_ok_iff {p : CrcParams} {cand : List Byte} {f : FrameRecord} :
    validateFrame p cand = .ok f ↔
      Whole cand ∧ byteAt cand (lengthField cand + 6) = ENDM ∧
      transmitted cand (lengthField cand) = computed p cand (lengthField cand) ∧
      f = recordOf cand (lengthField cand) := by
  unfold validateFrame
  dsimp only
  split_ifs with hs hm hc he hx
  · exact iff_of_false nofun fun ⟨hw, _⟩ => hs hw.start
  · exact iff_of_false nofun fun ⟨hw, _⟩ => Nat.not_le.mpr hm hw.minimum
  · exact iff_of_false nofun fun ⟨hw, _⟩ => Nat.not_le.mpr hc hw.complete
  · exact iff_of_false nofun fun ⟨_, hend, _⟩ => he hend
  · exact iff_of_false nofun fun ⟨_, _, hsum, _⟩ => hx hsum
  · have hw : Whole cand := ⟨not_not.mp hs, Nat.not_lt.mp hm, Nat.not_lt.mp hc⟩
    simp [hw, not_not.mp he, not_not.mp hx, eq_comm]

/-- A whole candidate with the right end marker begins with the wire form of its record. -/
theorem Whole.eq_wire_append {buf : List Byte} (h : Whole buf) (he : byteAt buf (lengthField buf + 6) = ENDM) :
    buf = (recordOf buf (lengthField buf)).wire ++ buf.drop (lengthField buf + OVERHEAD) := by
  rw [← h.take_eq_wire he, List.take_append_drop]

/-- The interior of a record, with the length field it was received with. -/
theorem FrameRecord.frameInterior_eq {f : FrameRecord} (h : f.payload.length = f.length.toNat) :
    frameInterior f.target f.sender f.payload = [f.target, f.sender, f.length] ++ f.payload := by
  rw [frameInterior, h, BitVec.ofNat_toNat, BitVec.setWidth_eq]

/-! ### What ENCODE does with the codec's answer -/

theorem exec_encode_of_ok {target sender : Int} {payload frame : List Byte}
    (h : encodeFrame Config.crc target sender payload = .ok frame) (s : State) :
    exec (.encode target sender payload) s = .next (s.respond (.wire frame)) := by
  rw [exec, execEncode, encodeWith, h, Except.map, State.answer_ok]

theorem exec_encode_of_error {target sender : Int} {payload : List Byte} {e : ErrorResult}
    (h : encodeFrame Config.crc target sender payload = .error e) (s : State) :
    exec (.encode target sender payload) s = .next (s.raise e) := by
  rw [exec, execEncode, encodeWith, h, Except.map, State.answer_error]

/-! ### Bindings (R80) -/

theorem Bindings.unbind_cons (name n : String) (v : Value) (env : Bindings) :
    Bindings.unbind name ((n, v) :: env) =
      if n = name then Bindings.unbind name env else (n, v) :: Bindings.unbind name env := by
  by_cases hn : n = name <;> simp [Bindings.unbind, hn]

@[simp] theorem Bindings.find_unbind_self (name : String) (env : Bindings) :
    Bindings.find name (Bindings.unbind name env) = none := by
  induction env with
  | nil => rfl
  | cons e rest ih =>
    rw [Bindings.unbind_cons]
    split_ifs with hn
    · exact ih
    · rw [Bindings.find, if_neg hn, ih]

theorem Bindings.find_unbind_of_ne {name other : String} (h : other ≠ name) (env : Bindings) :
    Bindings.find other (Bindings.unbind name env) = Bindings.find other env := by
  induction env with
  | nil => rfl
  | cons e rest ih =>
    rw [Bindings.unbind_cons, Bindings.find]
    split_ifs with hn ho ho
    · exact absurd (ho.symm.trans hn) h
    · exact ih
    · rw [Bindings.find, if_pos ho]
    · rw [Bindings.find, if_neg ho, ih]

@[simp] theorem Bindings.find_bind_self (name : String) (v : Value) (env : Bindings) :
    Bindings.find name (Bindings.bind name v env) = some v := if_pos rfl

theorem Bindings.find_bind_of_ne {name other : String} (h : other ≠ name) (v : Value) (env : Bindings) :
    Bindings.find other (Bindings.bind name v env) = Bindings.find other env :=
  (if_neg h.symm).trans (Bindings.find_unbind_of_ne h env)

/-- A line leaves every name but its own bound as before. -/
theorem find_bindResult_of_ne {name other : String} (h : other ≠ name) (r : Option Response) (env : Bindings) :
    Bindings.find other (bindResult (some name) r env) = Bindings.find other env := by
  rcases r with _ | v | e
  · exact Bindings.find_unbind_of_ne h env
  · exact Bindings.find_bind_of_ne h v env
  · exact Bindings.find_unbind_of_ne h env

/-! ### Operation lines (R80 to R82) -/

theorem runOp_next_bindings {stp : State → Outcome} {name : Option String} {o : AsmOp} {w v : Session}
    (h : runOp stp name o w = .next v) : v.bindings = bindResult name v.machine.response w.bindings := by
  unfold runOp at h
  split at h
  · cases h
  · split at h <;> cases h
    rfl

/-- A line is run by the request it denotes alone. -/
theorem runOp_congr {stp : State → Outcome} {name : Option String} {o o' : AsmOp} {w : Session}
    (h : o.request w.bindings = o'.request w.bindings) : runOp stp name o w = runOp stp name o' w := by
  simp only [runOp, h]

theorem runOp_push_unbound {stp : State → Outcome} {b : Option String} {name : String} {w : Session}
    (h : Bindings.find name w.bindings = none) : runOp stp b (.push (.var name)) w = .refused (.unboundName name) := by
  simp only [runOp, AsmOp.request, BytesExpr.eval, h, Except.map]

/-- Between operations the block runs an operation the host issues, and the pending requests are as before. -/
theorem step_issue_encode {s : State} (hp : s.phase = .idle) (i : Instr) : step (s.issue (encode i)) = exec i s :=
  stepRunsDecodedRequest (s.issue (encode i)) (encode i) s.requests i hp rfl (decode_eq_ok_iff.mpr rfl)

/-- A line whose operation completes leaves the operation's next state and binds its result. -/
theorem runOp_of_exec {name : Option String} {o : AsmOp} {w : Session} {i : Instr} {t : State}
    (hp : w.machine.phase = .idle) (ho : o.request w.bindings = .ok (encode i)) (hx : exec i w.machine = .next t) :
    runOp step name o w = .next { machine := t, bindings := bindResult name t.response w.bindings } := by
  simp only [runOp, ho, step_issue_encode hp, hx]

@[simp] theorem runLines_singleton (stp : State → Outcome) (l : AsmLine) (w : Session) :
    runLines stp [l] w = runLine stp l w := by
  cases h : runLine stp l w <;> simp [runLines, h]

theorem AsmOp.request_encode {env : Bindings} {p : BytesExpr} {bs : List Byte} (h : p.eval opEncode env = .ok bs)
    (t sd : Int) : (AsmOp.encode t sd p).request env = .ok (Sys2Proof.encode (.encode t sd bs)) := by
  rw [AsmOp.request, h, Except.map]

/-- LOOPBACK after an ENCODE line that binds `$w` is the PUSH line (R82). -/
theorem runLine_loopback_of_bound {stp : State → Outcome} {t : Int} {p : BytesExpr} {w v : Session} {x : Value}
    (h : runOp stp (some "w") (.encode t 0 p) w = .next v) (hx : Bindings.find "w" v.bindings = some x) :
    runLine stp (.loopback t p) w = runOp stp none (.push (.var "w")) v := by
  simp only [runLine, h, hx]

/-- LOOPBACK after an ENCODE line that leaves `$w` unbound is that line alone (R82). -/
theorem runLine_loopback_of_unbound {stp : State → Outcome} {t : Int} {p : BytesExpr} {w v : Session}
    (h : runOp stp (some "w") (.encode t 0 p) w = .next v) (hx : Bindings.find "w" v.bindings = none) :
    runLine stp (.loopback t p) w = .next v := by
  simp only [runLine, h, hx]

theorem runLines_cons_next {stp : State → Outcome} {l : AsmLine} {w v : Session} (h : runLine stp l w = .next v)
    (ls : List AsmLine) : runLines stp (l :: ls) w = runLines stp ls v := by
  simp only [runLines, h]

theorem asciiBytes_append {cs ds : List Char} {bs bs' : List Byte} (hc : asciiBytes cs = some bs)
    (hd : asciiBytes ds = some bs') : asciiBytes (cs ++ ds) = some (bs ++ bs') := by
  induction cs generalizing bs with
  | nil =>
    cases hc
    exact hd
  | cons c cs ih =>
    rw [asciiBytes] at hc
    split at hc
    next rest hrest =>
      split_ifs at hc with hlt
      cases hc
      rw [List.cons_append, asciiBytes, ih hrest]
      exact if_pos hlt
    next => cases hc

/-! ### The obligations -/

/-- Settles O5: the encoder's side of `decode_eq_ok_iff`. -/
theorem decodeOfEncode : Obligations.DecodeOfEncode := fun _ => decode_eq_ok_iff.mpr rfl

/-- Settles O6: the decoder's side of `decode_eq_ok_iff`. -/
theorem encodeOfDecode : Obligations.EncodeOfDecode := fun _ _ h => (decode_eq_ok_iff.mp h).symm

/-- Settles O8: the op code alone selects no operation. -/
theorem reservedOpcodesRefused : Obligations.ReservedOpcodesRefused := fun _ _ _ hp hr hop =>
  serveWith_of_decode_error Config.crc exec hp hr (decode_of_reserved hop)

/-- Settles O9: an operation's request is taken, as `decode` is the inverse of `encode`; for each admitted op code the
reader of its operands answers nothing but on the encoder's form of them. -/
theorem malformedOperandsRefused : Obligations.MalformedOperandsRefused := by
  rintro s ⟨op, ops⟩ rest hp hr
  refine ⟨?taken, ?encode, ?bytes, ?index, ?reset, fun u v w hv => Operand.seq_ne_ofBytes hv⟩
  case taken => exact fun i hi => serveWith_of_decode_ok Config.crc exec hp hr (decode_eq_ok_iff.mpr hi)
  case encode =>
    rintro rfl hne
    refine step_of_malformed hp hr (congrArg some (Option.eq_none_iff_forall_ne_some.mpr fun i hi => ?_))
    obtain ⟨t, sd, p, hops, -⟩ := decodeEncode_eq_some_iff.mp hi
    exact hne t sd p hops
  case bytes =>
    rintro (rfl | rfl | rfl) hne
    all_goals
      refine step_of_malformed hp hr (congrArg some (Option.eq_none_iff_forall_ne_some.mpr fun i hi => ?_))
      obtain ⟨bs, hops, -⟩ := decodeBytes_eq_some_iff.mp hi
      exact hne bs hops
  case index =>
    rintro rfl hne
    refine step_of_malformed hp hr (congrArg some (Option.eq_none_iff_forall_ne_some.mpr fun i hi => ?_))
    obtain ⟨n, hops, -⟩ := decodeReadStatus_eq_some_iff.mp hi
    exact hne n hops
  case reset =>
    rintro rfl hne
    refine step_of_malformed hp hr (congrArg some (Option.eq_none_iff_forall_ne_some.mpr fun i hi => ?_))
    exact hne (decodeReset_eq_some_iff.mp hi).1

/-- Settles O24: an accepted candidate is whole with the right end marker, so it begins with the wire form of its
record, and the checksum compared is that of the record's interior. -/
theorem validateIsSound : Obligations.ValidateIsSound := by
  intro p cand f h
  obtain ⟨hw, hend, hsum, rfl⟩ := validateFrame_ok_iff.mp h
  have hlen := hw.record_length
  refine ⟨⟨_, hw.eq_wire_append hend⟩, hlen.symm, ?_⟩
  rw [← FrameRecord.frameInterior_eq hlen]
  exact hsum.trans (hw.computed_eq hend p)

/-- Settles O58: the bindings after a line are `bindResult` of the response it leaves. -/
theorem linesBindResults : Obligations.LinesBindResults := by
  intro name o w v h
  have hb : v.bindings = bindResult (some name) v.machine.response w.bindings := runOp_next_bindings h
  refine ⟨fun x hx => ?ok, fun e he => ?error, fun other hother => ?frame⟩
  case ok =>
    rw [hb, hx]
    exact Bindings.find_bind_self name x w.bindings
  case error =>
    have hnone : Bindings.find name v.bindings = none := by
      rw [hb, he]
      exact Bindings.find_unbind_self name w.bindings
    exact ⟨hnone, fun _ => runOp_push_unbound hnone⟩
  case frame => rw [hb, find_bindResult_of_ne hother]

/-- Settles O60: the ENCODE line completes in any case, and `$w` is bound after it exactly if it succeeded. -/
theorem loopbackExpands : Obligations.LoopbackExpands := by
  intro t p bs w hp hbs
  have hreq := AsmOp.request_encode hbs t 0
  cases he : encodeFrame Config.crc t 0 bs with
  | ok frame =>
    obtain ⟨⟨h1, h127⟩, -, hlen, -⟩ := encodeFrame_ok_iff.mp he
    have hrun := runOp_of_exec (name := some "w") hp hreq (exec_encode_of_ok he w.machine)
    refine ⟨fun _ => ?_, fun hno => absurd ⟨h1, h127, hlen⟩ hno⟩
    rw [runLines_cons_next (l := .op (some "w") (.encode t 0 p)) hrun, runLines_singleton]
    exact runLine_loopback_of_bound hrun (Bindings.find_bind_self "w" _ _)
  | error e =>
    have hrun := runOp_of_exec (name := some "w") hp hreq (exec_encode_of_error he w.machine)
    have hnone := Bindings.find_unbind_self "w" w.bindings
    refine ⟨fun ⟨h1, h127, hlen⟩ => ?_, fun _ => ⟨_, e, runLine_loopback_of_unbound hrun hnone, rfl, hnone⟩⟩
    cases he.symm.trans (encodeFrame_ok_iff.mpr ⟨⟨h1, h127⟩, rfl, hlen, rfl⟩)

/-- Settles O4: the six op codes by evaluation; every other byte is reserved. -/
theorem tableWordsDecode : Obligations.TableWordsDecode := by
  refine ⟨by decide, by decide, by decide, by decide, by decide, by decide, by decide, fun w h7 h256 => ?_⟩
  have hop : (requestOfTableWord 8 w).op.toNat = w := by
    simp [requestOfTableWord]
    omega
  rw [decodeTableWord, decode_of_reserved (.inr (by omega))]

/-- Settles O57: each form's request is the encoder's, once its `<bytes>` are evaluated. -/
theorem lineDenotesRequest : Obligations.LineDenotesRequest := by
  intro env t sd e e' bs bs' n he he'
  refine ⟨AsmOp.request_encode (he _) t sd, ?validate, ?crc, ?push, rfl, rfl, rfl, rfl, rfl, ?cat, fun _ _ => rfl, ?var⟩
  case validate | crc | push =>
    rw [AsmOp.request, he]
    rfl
  case cat =>
    intro op
    simp only [BytesExpr.eval, he, he']
  case var =>
    intro op name hname
    simp only [BytesExpr.eval, hname]

/-- Settles O59: both lines denote the ENCODE request whose payload is the tag's bytes and 0x3F. -/
theorem encodeqExpands : Obligations.EncodeqExpands := by
  intro t tag bs env hbs
  have htext : asciiBytes (tag ++ ['?']) = some (bs ++ [0x3F#8]) := asciiBytes_append hbs rfl
  have hreq : ∀ env, (AsmOp.encodeq t tag).request env = .ok (encode (.encode t 0 (bs ++ [0x3F#8]))) := by
    intro env
    simp only [AsmOp.request, BytesExpr.eval, htext, Except.map]
  exact ⟨hreq env, fun _ w => runOp_congr (o' := .encode t 0 (.hex (bs ++ [0x3F#8]))) (hreq w.bindings)⟩

end Sys2Proof.Machine
end

section
/-! PROOFS of 40_codec.md: the table-driven CRC, the CRC of a sequence with one bit flipped, what ENCODE and VALIDATE
answer check by check, the round trip of the two, and VALIDATE of a frame with one bit flipped. -/

namespace Sys2Proof.Machine

/-! ### One byte of the CRC, and the byte-wise form (R100, R101) -/

theorem crcShift_of_set (p : CrcParams) {reg : Word16} (h : reg.getLsbD 15 = true) :
    crcShift p reg = reg <<< 1 ^^^ p.poly := if_pos h

theorem crcShift_of_clear (p : CrcParams) {reg : Word16} (h : reg.getLsbD 15 = false) :
    crcShift p reg = reg <<< 1 := if_neg (ne_true_of_eq_false h)

/-- A register whose n high bits are clear is only moved up by n shifts. -/
theorem crcShift_iterate_of_high_clear (p : CrcParams) {n : Nat} {reg : Word16}
    (h : ∀ i, 16 ≤ i + n → reg.getLsbD i = false) : (crcShift p)^[n] reg = reg <<< n := by
  induction n generalizing reg with
  | zero => simp
  | succ n ih =>
    rw [Function.iterate_succ_apply, crcShift_of_clear p (h 15 (by omega)), ih, ← BitVec.shiftLeft_add, Nat.add_comm]
    intro i hi
    simp [h (i - 1) (by omega)]

theorem byteHigh_xor (a b : Byte) : byteHigh (a ^^^ b) = byteHigh a ^^^ byteHigh b := by
  simp [byteHigh, BitVec.setWidth_xor, BitVec.shiftLeft_xor_distrib]

/-- A register is its high byte in place, exclusive-or its low byte. -/
theorem eq_byteHigh_xor_lo8 (reg : Word16) : reg = byteHigh (hi8 reg) ^^^ (lo8 reg).setWidth 16 := by
  apply BitVec.eq_of_getLsbD_eq
  intro i hi
  by_cases h : i < 8
  · simp [byteHigh, hi8, lo8, h, hi]
  · simp [byteHigh, hi8, lo8, h, hi, show i - 8 < 8 by omega, show 8 + (i - 8) = i by omega]

/-- Eight shifts move the low byte up untouched, so only the high byte meets the polynomial. -/
theorem crcShift_iterate_eight (p : CrcParams) (reg : Word16) :
    (crcShift p)^[8] reg = (crcShift p)^[8] (byteHigh (hi8 reg)) ^^^ reg <<< 8 := by
  have hlow : (crcShift p)^[8] ((lo8 reg).setWidth 16) = reg <<< 8 := by
    rw [crcShift_iterate_of_high_clear p fun i hi => by simp [BitVec.getLsbD_of_ge (lo8 reg) i (by omega)]]
    apply BitVec.eq_of_getLsbD_eq
    intro i hi
    simp only [BitVec.getLsbD_shiftLeft, BitVec.getLsbD_setWidth, lo8, BitVec.getLsbD_extractLsb']
    by_cases h : i < 8 <;> simp [h, show i - 8 < 8 by omega, show i - 8 < 16 by omega]
  conv_lhs => rw [eq_byteHigh_xor_lo8 reg, crcShift_iterate_linear, hlow]

theorem crcTable_getD (p : CrcParams) (i : Byte) : (crcTable p).getD i.toNat 0#16 = (crcShift p)^[8] (byteHigh i) := by
  have hi : i.toNat < 256 := i.isLt
  simp [crcTable, crcTableEntry, List.getD_eq_getElem?_getD, hi]

/-- A byte of the table-driven form is a byte of the bit-serial one (40_codec.md R101). -/
theorem crcTableByte_eq_crcByte (p : CrcParams) : crcTableByte p (crcTable p) = crcByte p := by
  funext reg b
  have hhi : hi8 (reg ^^^ byteHigh (crcIn p b)) = hi8 reg ^^^ crcIn p b := by
    apply BitVec.eq_of_getLsbD_eq
    intro i hi
    simp [hi8, byteHigh, hi, show 8 + i < 16 by omega]
  have hshift : (reg ^^^ byteHigh (crcIn p b)) <<< 8 = reg <<< 8 := by
    apply BitVec.eq_of_getLsbD_eq
    intro i hi
    by_cases h : i < 8
    · simp [h]
    · simp [byteHigh, h, show i - 8 < 8 by omega]
  rw [crcTableByte, crcTable_getD, crcByte, crcShift_iterate_eight p (reg ^^^ _), hhi, hshift, BitVec.xor_comm]

/-! ### The difference a flipped bit makes (R103) -/

/-- The values x^m mod the generator takes: a single bit while it has not been reduced, and from then on a nonzero
multiple of the largest power of x that divides the polynomial. None is zero, which is what R103 turns on. -/
def IsPowerResidue (p : CrcParams) (reg : Word16) : Prop :=
  (∃ i < 16, reg = BitVec.twoPow 16 i) ∨ (reg ≠ 0#16 ∧ ∀ j < p.poly.ctz.toNat, reg.getLsbD j = false)

theorem IsPowerResidue.ne_zero {p : CrcParams} {reg : Word16} (h : IsPowerResidue p reg) : reg ≠ 0#16 := by
  rcases h with ⟨i, hi, rfl⟩ | ⟨hne, -⟩
  · intro hzero
    have hbit := congrArg (fun v => v.getLsbD i) hzero
    simp [hi] at hbit
  · exact hne

theorem crcShift_twoPow (p : CrcParams) {i : Nat} (hi : i < 15) :
    crcShift p (BitVec.twoPow 16 i) = BitVec.twoPow 16 (i + 1) := by
  have hclear : (BitVec.twoPow 16 i).getLsbD 15 = false := by
    rw [BitVec.getLsbD_twoPow, decide_eq_false (show i ≠ 15 by omega), Bool.and_false]
  rw [crcShift_of_clear p hclear, BitVec.twoPow_eq, BitVec.twoPow_eq, BitVec.shiftLeft_add]

theorem crcShift_twoPow_top (p : CrcParams) : crcShift p (BitVec.twoPow 16 15) = p.poly := by
  have hout : BitVec.twoPow 16 15 <<< 1 = 0#16 := by decide
  rw [crcShift_of_set p (by decide), hout, BitVec.zero_xor]

/-- With every bit below n clear, the shift clears bit n too. -/
theorem shiftLeft_one_low {reg : Word16} {n : Nat} (hlow : ∀ j < n, reg.getLsbD j = false) {j : Nat} (hj : j ≤ n) :
    (reg <<< 1).getLsbD j = false := by
  rw [BitVec.getLsbD_shiftLeft]
  rcases Nat.eq_zero_or_pos j with rfl | hpos
  · simp
  · rw [hlow (j - 1) (by omega), Bool.and_false]

/-- The shift of a nonzero multiple of the polynomial's power of x is not zero: without reduction no bit is lost, and
with it the polynomial's lowest bit stays. -/
theorem crcShift_ne_zero {p : CrcParams} (hp : p.poly ≠ 0#16) {reg : Word16} (hne : reg ≠ 0#16)
    (hlow : ∀ j < p.poly.ctz.toNat, reg.getLsbD j = false) : crcShift p reg ≠ 0#16 := by
  intro hzero
  cases h15 : reg.getLsbD 15 with
  | true =>
    have hbit := congrArg (fun v => v.getLsbD p.poly.ctz.toNat) hzero
    simp only [crcShift_of_set p h15, BitVec.getLsbD_xor, shiftLeft_one_low hlow le_rfl,
      BitVec.getLsbD_true_ctz_of_ne_zero hp, BitVec.getLsbD_zero] at hbit
    exact absurd hbit (by decide)
  | false =>
    rw [crcShift_of_clear p h15] at hzero
    refine hne (BitVec.eq_of_getLsbD_eq fun j hj => ?_)
    rw [BitVec.getLsbD_zero]
    rcases Nat.lt_or_eq_of_le (Nat.le_of_lt_succ hj) with hlt | rfl
    · have hbit := congrArg (fun v => v.getLsbD (j + 1)) hzero
      simpa [show j + 1 < 16 by omega, BitVec.getLsbD_eq_getElem hj] using hbit
    · exact h15

theorem IsPowerResidue.shift {p : CrcParams} (hp : p.poly ≠ 0#16) {reg : Word16} (h : IsPowerResidue p reg) :
    IsPowerResidue p (crcShift p reg) := by
  rcases h with ⟨i, hi, rfl⟩ | ⟨hne, hlow⟩
  · rcases Nat.lt_or_eq_of_le (Nat.le_of_lt_succ hi) with hlt | rfl
    · exact .inl ⟨i + 1, by omega, crcShift_twoPow p hlt⟩
    · rw [crcShift_twoPow_top]
      exact .inr ⟨hp, fun j hj => BitVec.getLsbD_false_of_lt_ctz hj⟩
  · refine .inr ⟨crcShift_ne_zero hp hne hlow, fun j hj => ?_⟩
    cases h15 : reg.getLsbD 15 with
    | true =>
      rw [crcShift_of_set p h15, BitVec.getLsbD_xor, shiftLeft_one_low hlow hj.le, BitVec.getLsbD_false_of_lt_ctz hj,
        Bool.xor_false]
    | false => rw [crcShift_of_clear p h15, shiftLeft_one_low hlow hj.le]

theorem IsPowerResidue.iterate {p : CrcParams} (hp : p.poly ≠ 0#16) (n : Nat) {reg : Word16}
    (h : IsPowerResidue p reg) : IsPowerResidue p ((crcShift p)^[n] reg) := by
  induction n generalizing reg with
  | zero => exact h
  | succ n ih => exact ih (h.shift hp)

theorem crcIn_xor (p : CrcParams) (a b : Byte) : crcIn p (a ^^^ b) = crcIn p a ^^^ crcIn p b := by
  unfold crcIn
  split
  · exact reflect_xor a b
  · rfl

/-- A difference of the registers goes through the rest of the data as eight shifts a byte. -/
theorem crcFold_xor (p : CrcParams) (reg e : Word16) (d : List Byte) :
    crcFold p (reg ^^^ e) d = crcFold p reg d ^^^ (crcShift p)^[8 * d.length] e := by
  induction d generalizing reg e with
  | nil => rfl
  | cons b bs ih =>
    have hbyte : crcByte p (reg ^^^ e) b = crcByte p reg b ^^^ (crcShift p)^[8] e := by
      rw [crcByte, crcByte, ← crcShift_iterate_linear]
      congr 1
      simp only [BitVec.xor_assoc, BitVec.xor_comm e]
    rw [crcFold_cons, crcFold_cons, hbyte, ih, List.length_cons, Nat.mul_succ, Function.iterate_add_apply]

/-- A difference of one byte reaches the register as eight shifts of it. -/
theorem crcByte_xor (p : CrcParams) (reg : Word16) (b e : Byte) :
    crcByte p reg (b ^^^ e) = crcByte p reg b ^^^ (crcShift p)^[8] (byteHigh (crcIn p e)) := by
  rw [crcByte, crcByte, crcIn_xor, byteHigh_xor, ← BitVec.xor_assoc, crcShift_iterate_linear]

theorem reflect_twoPow {n k : Nat} (hk : k < n) : reflect (BitVec.twoPow n k) = BitVec.twoPow n (n - 1 - k) := by
  apply BitVec.eq_of_getLsbD_eq
  intro i hi
  rw [reflect_bit _ _ hi, BitVec.getLsbD_twoPow, BitVec.getLsbD_twoPow]
  simp [hk, show n - 1 - k < n by omega]
  omega

theorem byteHigh_twoPow {k : Nat} (hk : k < 8) : byteHigh (BitVec.twoPow 8 k) = BitVec.twoPow 16 (k + 8) := by
  apply BitVec.eq_of_getLsbD_eq
  intro i hi
  rw [byteHigh, BitVec.getLsbD_shiftLeft, BitVec.getLsbD_setWidth, BitVec.getLsbD_twoPow, BitVec.getLsbD_twoPow]
  by_cases h : i < 8
  · simp [h, show k + 8 ≠ i by omega]
  · simp [h, hk, hi, show k + 8 < 16 by omega, show k = i - 8 ↔ k + 8 = i by omega]
    omega

/-- A single bit of a byte enters the register as a single bit, reflected or not. -/
theorem isPowerResidue_bit (p : CrcParams) {k : Nat} (hk : k < 8) :
    IsPowerResidue p (byteHigh (crcIn p (1#8 <<< k))) := by
  rw [← BitVec.twoPow_eq]
  unfold crcIn
  split_ifs
  · rw [reflect_twoPow hk, byteHigh_twoPow (by omega)]
    exact .inl ⟨_, by omega, rfl⟩
  · rw [byteHigh_twoPow hk]
    exact .inl ⟨_, by omega, rfl⟩

/-- The registers after a sequence and after the one with one bit flipped differ by a power of x that is not zero
(40_codec.md R103). -/
theorem crc16_flipBit_ne {p : CrcParams} (hp : p.poly ≠ 0#16) {d : List Byte} {i k : Nat} (hi : i < d.length)
    (hk : k < 8) : crc16 p (flipBit d i k) ≠ crc16 p d := by
  obtain ⟨pre, b, post, rfl, -, hflip⟩ := List.exists_of_modify (fun b : Byte => b ^^^ (1#8 <<< k)) hi
  intro hcrc
  have hregs := crcOut_injective p hcrc
  rw [flipBit, hflip, crcFold_append, crcFold_append, crcFold_cons, crcFold_cons, crcByte_xor, crcFold_xor,
    ← Function.iterate_add_apply] at hregs
  refine ((isPowerResidue_bit p hk).iterate hp (8 * post.length + 8)).ne_zero ?_
  simpa using hregs

/-! ### What ENCODE answers, check by check (R110 to R114) -/

theorem encodeFrame_of_target {p : CrcParams} {target sender : Int} {payload : List Byte}
    (ht : ¬ (TARGET_MIN ≤ target ∧ target ≤ TARGET_MAX)) :
    encodeFrame p target sender payload = .error (.invalidAddress .target target) := if_pos ht

theorem encodeFrame_of_sender {p : CrcParams} {target sender : Int} {payload : List Byte}
    (ht : TARGET_MIN ≤ target ∧ target ≤ TARGET_MAX) (hs : sender ≠ SENDER_ID) :
    encodeFrame p target sender payload = .error (.invalidAddress .sender sender) := by
  rw [encodeFrame, if_neg (not_not.mpr ht), if_pos hs]

theorem encodeFrame_of_long {p : CrcParams} {target : Int} {payload : List Byte}
    (ht : TARGET_MIN ≤ target ∧ target ≤ TARGET_MAX) (hl : LEN_MAX < payload.length) :
    encodeFrame p target SENDER_ID payload = .error (.payloadTooLong payload.length) := by
  rw [encodeFrame, if_neg (not_not.mpr ht), if_neg (not_not.mpr rfl), if_pos hl]

/-! ### What VALIDATE answers, check by check (R120 to R124) -/

theorem validateFrame_of_noStart {p : CrcParams} {cand : List Byte} (hs : cand.head? ≠ some START) :
    validateFrame p cand = .error (.noStartMarker cand.head?) := if_pos hs

theorem validateFrame_of_short {p : CrcParams} {cand : List Byte} (hs : cand.head? = some START)
    (hm : cand.length < MIN_FRAME) : validateFrame p cand = .error (.tooShort cand.length) := by
  rw [validateFrame, if_neg (not_not.mpr hs), if_pos hm]

theorem validateFrame_of_truncated {p : CrcParams} {cand : List Byte} (hs : cand.head? = some START)
    (hm : MIN_FRAME ≤ cand.length) (hc : cand.length < lengthField cand + OVERHEAD) :
    validateFrame p cand = .error (.truncated (lengthField cand + OVERHEAD) cand.length) := by
  rw [validateFrame, if_neg (not_not.mpr hs), if_neg (Nat.not_lt.mpr hm)]
  exact if_pos hc

/-- Of a whole candidate the end marker is judged, and then the checksum (40_codec.md R121). -/
theorem Whole.validateFrame_eq {cand : List Byte} (hw : Whole cand) (p : CrcParams) :
    validateFrame p cand =
      if byteAt cand (lengthField cand + 6) ≠ ENDM then
        .error (.framingError (lengthField cand + 6) (byteAt cand (lengthField cand + 6)))
      else if transmitted cand (lengthField cand) ≠ computed p cand (lengthField cand) then
        .error (.checksumMismatch (transmitted cand (lengthField cand)) (computed p cand (lengthField cand)))
      else .ok (recordOf cand (lengthField cand)) := by
  rw [validateFrame, if_neg (not_not.mpr hw.start), if_neg (Nat.not_lt.mpr hw.minimum)]
  exact if_neg (Nat.not_lt.mpr hw.complete)

/-- VALIDATE looks only at the first L+7 bytes (40_codec.md R124). -/
theorem validateFrame_take (p : CrcParams) (cand : List Byte) :
    validateFrame p (cand.take (lengthField cand + OVERHEAD)) = validateFrame p cand := by
  rcases Nat.lt_or_ge cand.length (lengthField cand + OVERHEAD) with hlt | hge
  · rw [List.take_of_length_le hlt.le]
  · by_cases hs : cand.head? = some START
    · have hw : Whole cand := ⟨hs, le_trans (Nat.le_add_left _ _) hge, hge⟩
      rw [hw.validate_take, hw.validateFrame_eq]
    · have hhead : (cand.take (lengthField cand + OVERHEAD)).head? = cand.head? := by
        rw [List.head?_take, if_neg (by simp)]
      rw [validateFrame_of_noStart hs, validateFrame_of_noStart (by rwa [hhead]), hhead]

theorem exec_validate_of_ok {cand : List Byte} {f : FrameRecord} (h : validateFrame Config.crc cand = .ok f)
    (s : State) : exec (.validate cand) s = .next { s with response := some (.ok (.record f)) } := by
  rw [exec, execValidate, validateWith, h]
  rfl

theorem exec_validate_of_error {cand : List Byte} {e : ErrorResult} (h : validateFrame Config.crc cand = .error e)
    (s : State) : exec (.validate cand) s = .next { s with response := some (.error e) } := by
  rw [exec, execValidate, validateWith, h]
  rfl

/-- The transmitted checksum as the number the two bytes stand for (20_memory.md R42). -/
theorem transmitted_eq_ofNat (cand : List Byte) (len : Nat) :
    transmitted cand len =
      BitVec.ofNat 16 ((cand.getD (len + 4) 0#8).toNat * 256 + (cand.getD (len + 5) 0#8).toNat) := by
  rw [← u16_toNat, BitVec.ofNat_toNat, BitVec.setWidth_eq]
  rfl

/-! ### The frame ENCODE builds, as a candidate (R127) -/

/-- A frame with its own checksum is accepted, whatever follows it (40_codec.md R124, R126). -/
theorem validateFrame_wireFrame (p : CrcParams) (target sender : Byte) {payload : List Byte}
    (hlen : payload.length ≤ LEN_MAX) (rest : List Byte) :
    validateFrame p (wireFrame p target sender payload ++ rest) = .ok
      { target := target, sender := sender, length := BitVec.ofNat 8 payload.length, payload := payload
        checksum := crc16 p (frameInterior target sender payload) } := by
  rw [wireFrame, validateFrame_wireBytes p _ _ _ _ hlen, if_pos rfl]

theorem validateFrame_of_encodeFrame {p : CrcParams} {target sender : Int} {payload w : List Byte}
    (h : encodeFrame p target sender payload = .ok w) :
    validateFrame p w = .ok
      { target := BitVec.ofInt 8 target, sender := BitVec.ofInt 8 sender, length := BitVec.ofNat 8 payload.length
        payload := payload
        checksum := crc16 p (frameInterior (BitVec.ofInt 8 target) (BitVec.ofInt 8 sender) payload) } := by
  obtain ⟨-, -, hlen, rfl⟩ := encodeFrame_ok_iff.mp h
  rw [← validateFrame_wireFrame p _ _ hlen [], List.append_nil]

theorem length_of_encodeFrame {p : CrcParams} {target sender : Int} {payload w : List Byte}
    (h : encodeFrame p target sender payload = .ok w) : w.length = payload.length + 7 := by
  obtain ⟨-, -, -, rfl⟩ := encodeFrame_ok_iff.mp h
  exact wireBytes_length _ _ _ _

theorem lengthField_of_encodeFrame {p : CrcParams} {target sender : Int} {payload w : List Byte}
    (h : encodeFrame p target sender payload = .ok w) : lengthField w = payload.length := by
  obtain ⟨-, -, hlen, rfl⟩ := encodeFrame_ok_iff.mp h
  rw [wireFrame, ← List.append_nil (wireBytes _ _ _ _), lengthField_wireBytes _ _ _ _ hlen]

/-! ### A sequence with one bit flipped (R103, R125) -/

@[simp] theorem flipBit_length (d : List Byte) (o k : Nat) : (flipBit d o k).length = d.length :=
  List.length_modify _ _ _

theorem flipped_ne (b : Byte) {k : Nat} (hk : k < 8) : b ^^^ (1#8 <<< k) ≠ b := by
  intro h
  have hbit := congrArg (fun v => v.getLsbD k) h
  simp [hk] at hbit

theorem byteAt_flipBit_of_ne (d : List Byte) {o j : Nat} (h : o ≠ j) (k : Nat) :
    byteAt (flipBit d o k) j = byteAt d j := by
  simp [byteAt, flipBit, List.getD_eq_getElem?_getD, h]

theorem byteAt_flipBit_ne {d : List Byte} {o k : Nat} (ho : o < d.length) (hk : k < 8) :
    byteAt (flipBit d o k) o ≠ byteAt d o := by
  have hself : byteAt (flipBit d o k) o = byteAt d o ^^^ (1#8 <<< k) := by
    simp [byteAt, flipBit, List.getD_eq_getElem?_getD, ho]
  rw [hself]
  exact flipped_ne _ hk

theorem head?_flipBit_of_pos (d : List Byte) {o : Nat} (ho : 0 < o) (k : Nat) :
    (flipBit d o k).head? = d.head? := by
  rw [List.head?_eq_getElem?, List.head?_eq_getElem?, flipBit, List.getElem?_modify_ne _ _ ho.ne']

theorem head?_flipBit_zero_ne {d : List Byte} {b : Byte} (hd : d.head? = some b) {k : Nat} (hk : k < 8) :
    (flipBit d 0 k).head? ≠ some b := by
  rw [List.head?_eq_getElem?] at hd ⊢
  rw [flipBit, List.getElem?_modify_eq, hd]
  exact fun h => flipped_ne b hk (Option.some.inj h)

theorem slice_flipBit_of_mem (d : List Byte) {o i n : Nat} (hi : i ≤ o) (k : Nat) :
    slice (flipBit d o k) i n = flipBit (slice d i n) (o - i) k := by
  rw [slice, slice, flipBit, flipBit, List.drop_modify_of_ge _ _ _ _ hi, List.take_modify]

theorem slice_flipBit_of_le (d : List Byte) {o i n : Nat} (hn : i + n ≤ o) (k : Nat) :
    slice (flipBit d o k) i n = slice d i n := by
  rw [slice_flipBit_of_mem d (by omega), flipBit, List.modify_eq_self]
  exact le_trans (List.length_take_le _ _) (by omega)

theorem lengthField_flipBit_of_ne (d : List Byte) {o : Nat} (ho : o ≠ 3) (k : Nat) :
    lengthField (flipBit d o k) = lengthField d := by
  rw [lengthField, byteAt_flipBit_of_ne d ho, lengthField]

theorem lengthField_flipBit_ne {d : List Byte} {k : Nat} (hd : 3 < d.length) (hk : k < 8) :
    lengthField (flipBit d 3 k) ≠ lengthField d :=
  fun h => byteAt_flipBit_ne hd hk (BitVec.eq_of_toNat_eq h)

theorem transmitted_flipBit_of_lt (d : List Byte) {o len : Nat} (h : o < len + 4) (k : Nat) :
    transmitted (flipBit d o k) len = transmitted d len := by
  rw [transmitted, byteAt_flipBit_of_ne d (by omega), byteAt_flipBit_of_ne d (by omega), transmitted]

theorem transmitted_flipBit_ne {d : List Byte} {o k len : Nat} (ho : o < d.length) (hk : k < 8)
    (h : o = len + 4 ∨ o = len + 5) : transmitted (flipBit d o k) len ≠ transmitted d len := by
  intro heq
  obtain ⟨hhi, hlo⟩ := u16_inj.mp heq
  rcases h with rfl | rfl
  · exact byteAt_flipBit_ne ho hk hhi
  · exact byteAt_flipBit_ne ho hk hlo

theorem computed_flipBit_of_le (p : CrcParams) (d : List Byte) {o len : Nat} (h : len + 4 ≤ o) (k : Nat) :
    computed p (flipBit d o k) len = computed p d len := by
  rw [computed, slice_flipBit_of_le d (by omega), computed]

/-- A flipped bit among the bytes the checksum covers changes it (40_codec.md R103). -/
theorem computed_flipBit_ne {p : CrcParams} (hp : p.poly ≠ 0#16) {d : List Byte} {o k len : Nat} (hk : k < 8)
    (h1 : 1 ≤ o) (hlen : o ≤ len + 3) (hd : len + 4 ≤ d.length) :
    computed p (flipBit d o k) len ≠ computed p d len := by
  rw [computed, slice_flipBit_of_mem d h1]
  exact crc16_flipBit_ne hp (by rw [slice_length (by omega)]; omega) hk

/-- A flipped bit from offset 1 to the checksum's last byte makes a right checksum wrong: it changes either the one
recomputed or the one transmitted, and not both. -/
theorem checksum_flipBit_ne {p : CrcParams} (hp : p.poly ≠ 0#16) {d : List Byte} {o k len : Nat} (hk : k < 8)
    (h1 : 1 ≤ o) (hlen : o ≤ len + 5) (hd : len + 6 ≤ d.length) (hsum : transmitted d len = computed p d len) :
    transmitted (flipBit d o k) len ≠ computed p (flipBit d o k) len := by
  rcases Nat.lt_or_ge o (len + 4) with hlt | hge
  · rw [transmitted_flipBit_of_lt d hlt, hsum]
    exact (computed_flipBit_ne hp hk h1 (by omega) (by omega)).symm
  · rw [computed_flipBit_of_le p d hge, ← hsum]
    exact transmitted_flipBit_ne (by omega) hk (by omega)

/-- A flipped bit outside the start marker and the length field leaves a candidate whole. -/
theorem Whole.flipBit_of_ne {d : List Byte} (hw : Whole d) {o : Nat} (h0 : 0 < o) (h3 : o ≠ 3) (k : Nat) :
    Whole (flipBit d o k) where
  start := by rw [head?_flipBit_of_pos d h0, hw.start]
  minimum := by rw [flipBit_length]; exact hw.minimum
  complete := by rw [lengthField_flipBit_of_ne d h3, flipBit_length]; exact hw.complete

/-- A flipped length field that got smaller leaves a candidate whole. -/
theorem Whole.flipBit_of_shorter {d : List Byte} (hw : Whole d) {k : Nat}
    (hlt : lengthField (flipBit d 3 k) < lengthField d) : Whole (flipBit d 3 k) where
  start := by rw [head?_flipBit_of_pos d (by decide), hw.start]
  minimum := by rw [flipBit_length]; exact hw.minimum
  complete := by rw [flipBit_length]; exact le_trans (Nat.add_le_add_right hlt.le _) hw.complete

/-! ### A whole candidate with one bit flipped (R125) -/

section
variable {p : CrcParams} {w : List Byte} {o k : Nat} (hw : Whole w) (hk : k < 8)
include hw hk

theorem Whole.validate_flipBit_start :
    validateFrame p (flipBit w 0 k) = .error (.noStartMarker (flipBit w 0 k).head?) :=
  validateFrame_of_noStart (head?_flipBit_zero_ne hw.start hk)

theorem Whole.validate_flipBit_body (hp : p.poly ≠ 0#16) (hend : byteAt w (lengthField w + 6) = ENDM)
    (hsum : transmitted w (lengthField w) = computed p w (lengthField w)) (h1 : 1 ≤ o) (h3 : o ≠ 3)
    (ho : o ≤ lengthField w + 5) :
    ∃ tx rc, tx ≠ rc ∧ validateFrame p (flipBit w o k) = .error (.checksumMismatch tx rc) := by
  have hlen := hw.complete
  simp only [OVERHEAD] at hlen
  have hne := checksum_flipBit_ne hp hk h1 ho (by omega) hsum
  refine ⟨_, _, hne, ?_⟩
  rw [(hw.flipBit_of_ne h1 h3 k).validateFrame_eq, lengthField_flipBit_of_ne w h3, byteAt_flipBit_of_ne w (by omega),
    if_neg (not_not.mpr hend), if_pos hne]

theorem Whole.validate_flipBit_end (hend : byteAt w (lengthField w + 6) = ENDM) (ho : o = lengthField w + 6) :
    validateFrame p (flipBit w o k) = .error (.framingError o (byteAt (flipBit w o k) o)) := by
  have hlen := hw.complete
  simp only [OVERHEAD] at hlen
  have hne := byteAt_flipBit_ne (d := w) (o := o) (by omega) hk
  rw [ho, hend, ← ho] at hne
  rw [(hw.flipBit_of_ne (by omega) (by omega) k).validateFrame_eq, lengthField_flipBit_of_ne w (by omega), ← ho,
    if_pos hne]

end

/-- A longer length field asks for more bytes than the frame has. -/
theorem Whole.validate_flipBit_longer {w : List Byte} (hw : Whole w) {k : Nat}
    (hlt : w.length < lengthField (flipBit w 3 k) + OVERHEAD) (p : CrcParams) :
    validateFrame p (flipBit w 3 k) = .error (.truncated (lengthField (flipBit w 3 k) + OVERHEAD) w.length) := by
  have hlen : (flipBit w 3 k).length = w.length := flipBit_length w 3 k
  rw [← hlen] at hlt ⊢
  exact validateFrame_of_truncated (by rw [head?_flipBit_of_pos w (by decide), hw.start])
    (hlen ▸ hw.minimum) hlt

/-- A shorter length field leaves a whole candidate, whose end marker and transmitted checksum are bytes of the frame
as it was; the checksum is recomputed over the flipped bytes (40_codec.md R120). -/
theorem Whole.validate_flipBit_shorter {w : List Byte} (hw : Whole w) {k : Nat}
    (hlt : lengthField (flipBit w 3 k) < lengthField w) (p : CrcParams) :
    validateFrame p (flipBit w 3 k) =
      if byteAt w (lengthField (flipBit w 3 k) + 6) ≠ ENDM then
        .error (.framingError (lengthField (flipBit w 3 k) + 6) (byteAt w (lengthField (flipBit w 3 k) + 6)))
      else if transmitted w (lengthField (flipBit w 3 k)) ≠
          computed p (flipBit w 3 k) (lengthField (flipBit w 3 k)) then
        .error (.checksumMismatch (transmitted w (lengthField (flipBit w 3 k)))
          (computed p (flipBit w 3 k) (lengthField (flipBit w 3 k))))
      else .ok (recordOf (flipBit w 3 k) (lengthField (flipBit w 3 k))) := by
  rw [(hw.flipBit_of_shorter hlt).validateFrame_eq, byteAt_flipBit_of_ne w (by omega),
    transmitted_flipBit_of_lt w (by omega)]

/-! ### The obligations -/

/-- Settles O14: byte for byte, the two forms compute the same register. -/
theorem tableCrcEqualsBitSerial : Obligations.TableCrcEqualsBitSerial := by
  intro p data
  rw [crc16Table, crcTableByte_eq_crcByte, crc16, crcFold]

/-- Settles O15: the two registers differ by a power of x, which the generator does not divide. -/
theorem crcDetectsSingleBit : Obligations.CrcDetectsSingleBit :=
  fun _ hp _ _ _ hi hk => crc16_flipBit_ne hp hi hk

/-- Settles O25: what ENCODE gives is a frame with its own checksum, and VALIDATE accepts such a frame. -/
theorem codecRoundTrip : Obligations.CodecRoundTrip := by
  intro p t payload h1 h127 hlen
  have henc : encodeFrame p t 0 payload = .ok _ := encodeFrame_ok_iff.mpr ⟨⟨h1, h127⟩, rfl, hlen, rfl⟩
  exact ⟨_, henc, validateFrame_of_encodeFrame henc⟩

/-- Settles O26: the encoded frame is a whole candidate that carries its own checksum; the offset of the flipped bit
says which check the flipped frame fails. -/
theorem singleBitFlipOutcome : Obligations.SingleBitFlipOutcome := by
  intro p hp t payload w henc o k ho hk
  have hL := lengthField_of_encodeFrame henc
  have hlen := length_of_encodeFrame henc
  obtain ⟨hw, hend, hsum, -⟩ := validateFrame_ok_iff.mp (validateFrame_of_encodeFrame henc)
  refine ⟨fun hbody => ?body, ?start, fun hmarker => ?marker, ?length⟩
  case body => exact hw.validate_flipBit_body hk hp hend hsum (by omega) (by omega) (by omega)
  case start =>
    rintro rfl
    exact hw.validate_flipBit_start hk
  case marker =>
    rw [← hmarker]
    exact hw.validate_flipBit_end hk hend (by omega)
  case length =>
    rintro rfl
    have hdiff : lengthField (flipBit w 3 k) ≠ payload.length := hL ▸ lengthField_flipBit_ne ho hk
    refine ⟨hdiff, fun hlonger => ?longer, fun hshorter hmarker => ?framing, fun hshorter hmarker => ?checksum⟩
    case longer =>
      have hlt : payload.length < lengthField (flipBit w 3 k) := hlonger
      exact hw.validate_flipBit_longer (by simp only [OVERHEAD]; omega) p
    case framing =>
      rw [hw.validate_flipBit_shorter (hL ▸ hshorter)]
      exact if_pos hmarker
    case checksum =>
      have hlt : lengthField (flipBit w 3 k) < payload.length := hshorter
      have hval := (hw.validate_flipBit_shorter (hL ▸ hshorter) p).trans (if_neg (not_not.mpr hmarker))
      refine ⟨fun hne => hval.trans (if_pos hne),
        fun heq => ⟨_, hval.trans (if_neg (not_not.mpr heq)), ?payload⟩, ?crc⟩
      case payload =>
        have hplen := (hw.flipBit_of_shorter (hL ▸ hshorter)).record_length
        exact fun hpl => hdiff (hplen.symm.trans (congrArg List.length hpl))
      case crc => exact (computed_flipBit_ne hp hk (by decide) (by omega) (by omega)).symm

/-- Settles O18: ENCODE's result is the wire frame of operands that passed its checks. -/
theorem encodeOutputShape : Obligations.EncodeOutputShape := by
  intro t sd payload w s u hx hw
  have henc := encodeFrame_of_exec_encode hx hw
  have hlen := length_of_encodeFrame henc
  have hL := lengthField_of_encodeFrame henc
  obtain ⟨⟨h1, h127⟩, rfl, hmax, rfl⟩ := encodeFrame_ok_iff.mp henc
  have htarget : (BitVec.ofInt 8 t).toNat = t.toNat := by
    simp only [BitVec.toNat_ofInt]
    simp only [TARGET_MIN, TARGET_MAX] at h1 h127
    omega
  refine ⟨h1, h127, rfl, hmax, hlen, by omega, by simp only [LEN_MAX] at hmax; omega, hL,
    slice_wireBytes_payload _ _ _ _, ?target, byteAt_wireBytes_sender _ _ _ _, ?last⟩
  case target => exact (congrArg BitVec.toNat (byteAt_wireBytes_target _ _ _ _)).trans htarget
  case last => exact List.getLast?_concat

/-- Settles O21: the clauses are the checks of VALIDATE in their order, the numbers written out. -/
theorem validateDecidesInOrder : Obligations.ValidateDecidesInOrder := by
  intro cand s
  simp only [← transmitted_eq_ofNat]
  refine ⟨fun hs => ?_, fun hs hm => ?_, fun hs hm hc => ?_, fun hs hm hc he => ?_, fun hs hm hc he hx => ?_,
    fun hs hm hc he hx => ?_⟩
  · exact exec_validate_of_error (validateFrame_of_noStart hs) s
  · exact exec_validate_of_error (validateFrame_of_short hs hm) s
  · exact exec_validate_of_error (validateFrame_of_truncated hs hm hc) s
  · exact exec_validate_of_error ((Whole.validateFrame_eq ⟨hs, hm, hc⟩ _).trans (if_pos he)) s
  · exact exec_validate_of_error
      ((Whole.validateFrame_eq ⟨hs, hm, hc⟩ _).trans ((if_neg (not_not.mpr he)).trans (if_pos hx))) s
  · exact exec_validate_of_ok (validateFrame_ok_iff.mpr ⟨⟨hs, hm, hc⟩, he, hx, rfl⟩) s

/-- Settles O22: the candidate is a frame with its own checksum, with bytes after it. -/
theorem validateAcceptsFrames : Obligations.ValidateAcceptsFrames := by
  intro t sd payload rest s hlen
  have hval := exec_validate_of_ok (validateFrame_wireFrame Config.crc t sd hlen rest) s
  simpa [wireFrame, wireBytes, frameInterior] using hval

/-- Settles O23: the length field is L, and VALIDATE looks no further than offset L+6. -/
theorem validateIgnoresTrailingBytes : Obligations.ValidateIgnoresTrailingBytes :=
  fun p cand => (validateFrame_take p cand).symm

/-- Settles O13: R100's loops are `crcFold` and eight turns of `crcShift`, unrolled; reflection is `reflect_bit`. -/
theorem crcAnswersChecksum : Obligations.CrcAnswersChecksum :=
  ⟨fun _ _ => rfl, fun _ => rfl, fun _ _ => rfl, fun v i hi => reflect_bit v i hi, fun v i hi => reflect_bit v i hi⟩

/-- Settles O16: the operands pass ENCODE's checks, and the frame is `wireFrame` written out. -/
theorem encodeBuildsWireFrame : Obligations.EncodeBuildsWireFrame := by
  intro t payload s h1 h127 hlen
  exact exec_encode_of_ok (encodeFrame_ok_iff.mpr ⟨⟨h1, h127⟩, rfl, hlen, rfl⟩) s

/-- Settles O17: each clause is one check of ENCODE, those before it having passed. -/
theorem encodeRejectsInOrder : Obligations.EncodeRejectsInOrder := by
  intro t sd payload s
  refine ⟨fun ht => ?target, fun ht hs => ?sender, fun ht hs hl => ?payload⟩
  case target => exact exec_encode_of_error (encodeFrame_of_target ht) s
  case sender => exact exec_encode_of_error (encodeFrame_of_sender ht hs) s
  case payload =>
    subst hs
    exact exec_encode_of_error (encodeFrame_of_long ht hl) s

end Sys2Proof.Machine
end

section
/-! PROOFS of 41_decoder.md: how a received stream falls into pieces, and that the extraction loop of a PUSH reads off
exactly those pieces. From this one description of the loop follow the single extraction steps, the equivalence of
chunkings, the soundness of the stream, the resynchronisation over a stray start marker, and the small-step reading. -/

namespace Sys2Proof.Machine

/-! ### Counters (10_state.md R23) -/

@[simp] theorem counterAdd_zero (c : Counter) : counterAdd c 0 = c := BitVec.add_zero c

@[simp] theorem counterAdd_counterAdd (c : Counter) (m n : Nat) :
    counterAdd (counterAdd c m) n = counterAdd c (m + n) := by
  rw [counterAdd, counterAdd, counterAdd, BitVec.ofNat_add, BitVec.add_assoc]

theorem counterAdd_toNat (c : Counter) (n : Nat) : (counterAdd c n).toNat = (c.toNat + n) % 2 ^ 32 := by
  rw [counterAdd, BitVec.toNat_add, BitVec.toNat_ofNat, Nat.add_mod_mod]

/-! ### Whole candidates and quiescent buffers -/

theorem Whole.resync_eq {buf : List Byte} (h : Whole buf) : resync buf = buf := by
  obtain ⟨rest, rfl⟩ := List.head?_eq_some_iff.mp h.start
  exact resync_start rest

/-- Step 1 has nothing to do on what it leaves. -/
@[simp] theorem resync_resync (buf : List Byte) : resync (resync buf) = resync buf := by
  rcases resync_eq_nil_or_start buf with h | ⟨rest, h⟩ <;> rw [h]
  · exact resync_nil
  · exact resync_start rest

theorem Whole.lengthField_append {buf : List Byte} (h : Whole buf) (rest : List Byte) :
    lengthField (buf ++ rest) = lengthField buf :=
  congrArg BitVec.toNat (byteAt_append_left (Nat.lt_of_lt_of_le (by decide) h.minimum))

/-- A whole candidate stays one when more bytes arrive. -/
theorem Whole.append {buf : List Byte} (h : Whole buf) (rest : List Byte) : Whole (buf ++ rest) where
  start := by rw [List.head?_append, h.start]; rfl
  minimum := h.minimum.trans (by simp)
  complete := by rw [h.lengthField_append]; exact h.complete.trans (by simp)

/-- A quiescent buffer holds less than the longest frame (41_decoder.md R142). -/
theorem Quiescent.length_lt {buf : List Byte} (h : Quiescent buf) : buf.length < MAX_FRAME := by
  have hfield : lengthField buf < 256 := (byteAt buf 3).isLt
  rcases h with rfl | ⟨-, hmin | hcomplete⟩
  · decide
  · exact hmin.trans (by decide)
  · simp only [OVERHEAD, MAX_FRAME] at hcomplete ⊢
    omega

/-- A quiescent buffer stops the extraction step, and nothing is discarded (41_decoder.md R137, R141). -/
theorem Quiescent.extractStep {s : State} (h : Quiescent s.rxbuf) (p : CrcParams) :
    extractStepWith p s = (.stop, s) := by
  rcases extractStep_cases p s with ⟨-, he⟩ | ⟨hw, -⟩
  · rw [he, h.resync_eq]
  · rw [h.resync_eq] at hw
    exact absurd h hw.not_quiescent

/-! ### The piece that stands at the front of a stream -/

/-- The piece at the front of a stream, read off VALIDATE of the stream; none where no piece is complete. -/
def nextPiece (p : CrcParams) (stream : List Byte) : Option Piece :=
  match validateFrame p stream with
  | .error (.noStartMarker first) => first.map .noise
  | .error (.framingError _ _) => some .slide
  | .error (.checksumMismatch _ _) => some (.corrupt (stream.take (lengthField stream + OVERHEAD)))
  | .error _ => none
  | .ok f => some (.frame f)

/-- Only one piece is legitimate at the front of a stream (41_decoder.md R148). -/
theorem Piece.Legit.nextPiece_eq {p : CrcParams} {stream rest : List Byte} {x : Piece} (hx : x.Legit p stream)
    (hs : stream = x.bytes ++ rest) : nextPiece p stream = some x := by
  cases x with
  | noise b =>
    subst hs
    have hb : ((Piece.noise b).bytes ++ rest).head? ≠ some START := by simpa [Piece.Legit, Piece.bytes] using hx
    rw [nextPiece, validateFrame_of_noStart hb]
    rfl
  | slide =>
    obtain ⟨hw, he⟩ := hx
    simp [nextPiece, (hw.validateFrame_eq p).trans (if_pos he)]
  | corrupt cand =>
    obtain ⟨-, rfl, tx, rc, hv⟩ := hx
    simp [nextPiece, (validateFrame_take p stream).symm.trans hv]
  | frame f =>
    obtain ⟨-, hv⟩ := hx
    simp [nextPiece, (validateFrame_take p stream).symm.trans hv]

theorem Quiescent.nextPiece_eq {stream : List Byte} (h : Quiescent stream) (p : CrcParams) :
    nextPiece p stream = none := by
  rcases h with rfl | ⟨hs, hlen⟩
  · rfl
  · by_cases hm : stream.length < MIN_FRAME
    · simp [nextPiece, validateFrame_of_short hs hm]
    · have hc := hlen.resolve_left hm
      simp [nextPiece, validateFrame_of_truncated hs (Nat.not_lt.mp hm) hc]

/-- A piece that is legitimate stays so when more bytes arrive behind it. -/
theorem Piece.Legit.append {p : CrcParams} {stream : List Byte} {x : Piece} (hx : x.Legit p stream)
    (more : List Byte) : x.Legit p (stream ++ more) := by
  cases x with
  | noise b => exact hx
  | slide =>
    obtain ⟨hw, he⟩ := hx
    have hin : lengthField stream + 6 < stream.length := hw.complete
    refine ⟨hw.append more, ?_⟩
    rwa [hw.lengthField_append, byteAt_append_left hin]
  | corrupt cand =>
    obtain ⟨hw, hcand, hv⟩ := hx
    refine ⟨hw.append more, ?_, hv⟩
    rwa [hw.lengthField_append, List.take_append_of_le_length hw.complete]
  | frame f =>
    obtain ⟨hw, hv⟩ := hx
    refine ⟨hw.append more, ?_⟩
    rwa [hw.lengthField_append, List.take_append_of_le_length hw.complete]

/-! ### The division of a stream into pieces (R148) -/

theorem divides_bytes {p : CrcParams} {stream residual : List Byte} {xs : List Piece}
    (h : Divides p stream xs residual) : stream = xs.flatMap Piece.bytes ++ residual := by
  induction xs generalizing stream with
  | nil => exact h.1
  | cons x xs ih =>
    obtain ⟨rest, rfl, -, hrest⟩ := h
    rw [List.flatMap_cons, List.append_assoc, ← ih hrest]

theorem divides_nextPiece {p : CrcParams} {stream residual : List Byte} {xs : List Piece}
    (h : Divides p stream xs residual) : nextPiece p stream = xs.head? := by
  cases xs with
  | nil =>
    obtain ⟨rfl, hq⟩ := h
    exact hq.nextPiece_eq p
  | cons x xs =>
    obtain ⟨rest, hs, hx, -⟩ := h
    exact hx.nextPiece_eq hs

/-- A stream divides in one way only: its front determines the next piece, or that there is none. -/
theorem divides_unique {p : CrcParams} {stream r r' : List Byte} {xs ys : List Piece}
    (h : Divides p stream xs r) (h' : Divides p stream ys r') : ys = xs ∧ r' = r := by
  induction xs generalizing stream ys with
  | nil =>
    have hhead : ys.head? = none := (divides_nextPiece h').symm.trans (divides_nextPiece h)
    obtain rfl : ys = [] := List.head?_eq_none_iff.mp hhead
    exact ⟨rfl, h'.1.symm.trans h.1⟩
  | cons x xs ih =>
    have hhead : ys.head? = some x := (divides_nextPiece h').symm.trans (divides_nextPiece h)
    obtain ⟨ys, rfl⟩ := List.head?_eq_some_iff.mp hhead
    obtain ⟨rest, hs, -, hrest⟩ := h
    obtain ⟨rest', hs', -, hrest'⟩ := h'
    obtain rfl : rest = rest' := List.append_cancel_left (hs.symm.trans hs')
    obtain ⟨rfl, rfl⟩ := ih hrest hrest'
    exact ⟨rfl, rfl⟩

/-- A stream with more bytes behind it divides into its pieces and those of its residual with the further bytes. -/
theorem divides_append {p : CrcParams} {stream more r q : List Byte} {xs ys : List Piece}
    (h : Divides p stream xs r) (h' : Divides p (r ++ more) ys q) : Divides p (stream ++ more) (xs ++ ys) q := by
  induction xs generalizing stream with
  | nil =>
    obtain ⟨rfl, -⟩ := h
    exact h'
  | cons x xs ih =>
    obtain ⟨rest, rfl, hx, hrest⟩ := h
    exact ⟨rest ++ more, List.append_assoc _ _ _, hx.append more, ih hrest⟩

/-- Bytes that are no start marker, in front of a stream, are noise pieces. -/
theorem divides_noise {p : CrcParams} {noise stream r : List Byte} {xs : List Piece} (hn : ∀ b ∈ noise, b ≠ START)
    (h : Divides p stream xs r) : Divides p (noise ++ stream) (noise.map .noise ++ xs) r := by
  induction noise with
  | nil => exact h
  | cons b bs ih =>
    exact ⟨bs ++ stream, rfl, hn b (by simp), ih fun c hc => hn c (by simp [hc])⟩

/-- A stream divides as what step 1 leaves of it does, with noise in front. -/
theorem exists_noise_divides (p : CrcParams) (buf : List Byte) : ∃ noise : List Byte, ∀ xs r,
    Divides p (resync buf) xs r → Divides p buf (noise.map .noise ++ xs) r := by
  obtain ⟨noise, hsplit, hnoise⟩ := resync_split buf
  generalize resync buf = stream at hsplit ⊢
  subst hsplit
  exact ⟨noise, fun _ _ h => divides_noise hnoise h⟩

/-- A frame that VALIDATE accepts, to its last byte, divides into itself. -/
theorem divides_frame {p : CrcParams} {f : List Byte} {r : FrameRecord} (hv : validateFrame p f = .ok r)
    (hlen : f.length = r.payload.length + OVERHEAD) : Divides p f [.frame r] [] := by
  obtain ⟨hw, he, -, rfl⟩ := validateFrame_ok_iff.mp hv
  have hall : f.take (lengthField f + OVERHEAD) = f := by
    rw [List.take_of_length_le]
    rw [hlen, hw.record_length]
    rfl
  refine ⟨[], ?_, ⟨hw, ?_⟩, rfl, .inl rfl⟩
  · rw [List.append_nil, Piece.bytes, ← hw.take_eq_wire he, hall]
  · rw [hall, hv]

/-! ### What the block does with the pieces it reads -/

/-- The block's state when it has read the pieces off RXBUF and the residual is left in it (41_decoder.md R148). -/
def State.absorb (s : State) (pieces : List Piece) (residual : List Byte) : State :=
  { s with
    rxbuf := residual
    framesRx := counterAdd s.framesRx (pieces.filterMap Piece.emits).length
    crcFail := counterAdd s.crcFail (pieces.countP Piece.isCorrupt)
    frameOut := s.frameOut ++ pieces.filterMap Piece.emits }

@[simp] theorem State.absorb_nil (s : State) (r : List Byte) : s.absorb [] r = { s with rxbuf := r } := by
  simp [State.absorb]

theorem State.absorb_slide (s : State) (r : List Byte) : s.absorb [.slide] r = { s with rxbuf := r } := by
  simp [State.absorb, Piece.emits, Piece.isCorrupt, List.filterMap_cons]

theorem State.absorb_corrupt (s : State) (cand r : List Byte) :
    s.absorb [.corrupt cand] r = { s with rxbuf := r, crcFail := s.crcFail + 1 } := by
  simp [State.absorb, Piece.emits, Piece.isCorrupt, List.filterMap_cons, counterAdd]

theorem State.absorb_frame (s : State) (f : FrameRecord) (r : List Byte) :
    s.absorb [.frame f] r =
      { s with rxbuf := r, framesRx := s.framesRx + 1, frameOut := s.frameOut ++ [f] } := by
  simp [State.absorb, Piece.emits, Piece.isCorrupt, counterAdd]

/-- Pieces read one list after the other are the pieces of both lists read. -/
theorem State.absorb_absorb (s : State) (xs ys : List Piece) (r q : List Byte) :
    (s.absorb xs r).absorb ys q = s.absorb (xs ++ ys) q := by
  simp [State.absorb]

/-- Noise is neither counted nor emitted. -/
theorem State.absorb_noise (s : State) (noise r : List Byte) (xs : List Piece) :
    s.absorb (noise.map .noise ++ xs) r = s.absorb xs r := by
  have hemits : (noise.map Piece.noise).filterMap Piece.emits = [] := by simp [Piece.emits]
  have hcorrupt : (noise.map Piece.noise).countP Piece.isCorrupt = 0 := by simp [Piece.isCorrupt]
  simp only [State.absorb, List.filterMap_append, List.countP_append, hemits, hcorrupt, List.nil_append, Nat.zero_add]

/-! ### The extraction step and loop read off the pieces -/

/-- On a whole candidate an extraction step slides, discards or emits, as VALIDATE judges the candidate (41_decoder.md
R133 to R136). -/
theorem Whole.extractStep_cases {s : State} (hw : Whole s.rxbuf) (p : CrcParams) :
    (byteAt s.rxbuf (lengthField s.rxbuf + 6) ≠ ENDM ∧
      (∃ o v, validateFrame p (s.rxbuf.take (lengthField s.rxbuf + OVERHEAD)) = .error (.framingError o v)) ∧
      extractStepWith p s = (.again, { s with rxbuf := s.rxbuf.drop 1 })) ∨
    ((∃ tx rc, validateFrame p (s.rxbuf.take (lengthField s.rxbuf + OVERHEAD)) = .error (.checksumMismatch tx rc)) ∧
      extractStepWith p s =
        (.again, { s with rxbuf := s.rxbuf.drop (lengthField s.rxbuf + OVERHEAD), crcFail := s.crcFail + 1 })) ∨
    (∃ f, validateFrame p (s.rxbuf.take (lengthField s.rxbuf + OVERHEAD)) = .ok f ∧
      s.rxbuf.take (lengthField s.rxbuf + OVERHEAD) = f.wire ∧
      extractStepWith p s =
        (.again, { s with
          rxbuf := s.rxbuf.drop (lengthField s.rxbuf + OVERHEAD)
          framesRx := s.framesRx + 1
          frameOut := s.frameOut ++ [f] })) := by
  have hcases := Machine.extractStep_cases p s
  rw [hw.resync_eq] at hcases
  have hv := hw.validate_take p
  rcases hcases with ⟨hq, -⟩ | ⟨-, ⟨he, hstep⟩ | ⟨he, hx, hstep⟩ | ⟨he, hx, hstep⟩⟩
  · exact absurd hq hw.not_quiescent
  · exact .inl ⟨he, ⟨_, _, hv.trans (if_pos he)⟩, hstep⟩
  · exact .inr (.inl ⟨⟨_, _, hv.trans ((if_neg (not_not.mpr he)).trans (if_pos hx))⟩, hstep⟩)
  · have hok := hv.trans ((if_neg (not_not.mpr he)).trans (if_neg (not_not.mpr hx)))
    exact .inr (.inr ⟨_, hok, hw.take_eq_wire he, hstep⟩)

/-- The front of a whole candidate is a piece, and an extraction step reads that piece. -/
theorem Whole.exists_piece {s : State} (hw : Whole s.rxbuf) (p : CrcParams) :
    ∃ x rest, s.rxbuf = x.bytes ++ rest ∧ x.Legit p s.rxbuf ∧ extractStepWith p s = (.again, s.absorb [x] rest) := by
  have hsplit := (s.rxbuf.take_append_drop (lengthField s.rxbuf + OVERHEAD)).symm
  rcases hw.extractStep_cases p with ⟨he, -, hstep⟩ | ⟨hv, hstep⟩ | ⟨f, hv, hwire, hstep⟩
  · obtain ⟨rest, hrest⟩ := List.head?_eq_some_iff.mp hw.start
    refine ⟨.slide, rest, hrest, ⟨hw, he⟩, ?_⟩
    rw [hstep, State.absorb_slide, hrest, List.drop_one, List.tail_cons]
  · exact ⟨.corrupt _, _, hsplit, ⟨hw, rfl, hv⟩, by rw [hstep, State.absorb_corrupt]⟩
  · rw [hwire] at hsplit
    exact ⟨.frame f, _, hsplit, ⟨hw, hv⟩, by rw [hstep, State.absorb_frame]⟩

/-- On a whole candidate an extraction step reads whichever piece is legitimate there. -/
theorem Piece.Legit.extractStep {p : CrcParams} {s : State} {x : Piece} {rest : List Byte} (hx : x.Legit p s.rxbuf)
    (hw : Whole s.rxbuf) (hs : s.rxbuf = x.bytes ++ rest) : extractStepWith p s = (.again, s.absorb [x] rest) := by
  obtain ⟨y, rest', hs', hy, hstep⟩ := hw.exists_piece p
  obtain rfl : y = x := Option.some.inj ((hy.nextPiece_eq hs').symm.trans (hx.nextPiece_eq hs))
  obtain rfl : rest' = rest := List.append_cancel_left (hs'.symm.trans hs)
  exact hstep

/-- The loop, on a bound larger than the buffer, divides the buffer and leaves what the pieces say (R131, R140). -/
theorem extractLoop_divides (p : CrcParams) {n : Nat} {s : State} (hn : s.rxbuf.length < n) :
    ∃ xs r, Divides p s.rxbuf xs r ∧ extractLoopWith p n s = (.stop, s.absorb xs r) := by
  induction n generalizing s with
  | zero => omega
  | succ n ih =>
    obtain ⟨noise, hnoise⟩ := exists_noise_divides p s.rxbuf
    have hstep : extractStepWith p s = extractStepWith p { s with rxbuf := resync s.rxbuf } :=
      extractStep_resync p (s := s) (resync_resync s.rxbuf).symm
    rcases quiescent_or_whole (resync_eq_nil_or_start s.rxbuf) with hq | hw
    · refine ⟨noise.map .noise ++ [], resync s.rxbuf, hnoise [] _ ⟨rfl, hq⟩, ?_⟩
      rw [extractLoop_succ_stop (hstep.trans (Quiescent.extractStep hq p)), State.absorb_noise, State.absorb_nil]
    · obtain ⟨x, rest, hrest, hx, hagain⟩ := Whole.exists_piece (s := { s with rxbuf := resync s.rxbuf }) hw p
      have hagain := hstep.trans hagain
      have hshort := extractStep_again_shorter hagain
      obtain ⟨xs, r, hd, hloop⟩ := ih (Nat.lt_of_lt_of_le hshort (Nat.le_of_lt_succ hn))
      refine ⟨noise.map .noise ++ x :: xs, r, hnoise (x :: xs) r ⟨rest, hrest, hx, hd⟩, ?_⟩
      rw [extractLoop_succ_again hagain, hloop, State.absorb_absorb, State.absorb_noise]
      rfl

theorem extractLoop_of_divides {p : CrcParams} {n : Nat} {s : State} {xs : List Piece} {r : List Byte}
    (hd : Divides p s.rxbuf xs r) (hn : s.rxbuf.length < n) : extractLoopWith p n s = (.stop, s.absorb xs r) := by
  obtain ⟨ys, q, hd', hloop⟩ := extractLoop_divides p hn
  obtain ⟨rfl, rfl⟩ := divides_unique hd hd'
  exact hloop

/-- Every stream divides into pieces and a residual. -/
theorem exists_divides (p : CrcParams) (stream : List Byte) : ∃ xs r, Divides p stream xs r := by
  obtain ⟨xs, r, hd, -⟩ := extractLoop_divides p (s := { State.reset with rxbuf := stream }) (Nat.lt_succ_self _)
  exact ⟨xs, r, hd⟩

/-! ### PUSH reads off the pieces (R130) -/

theorem exec_push_of_idle {s : State} (hp : s.phase = .idle) (chunk : List Byte) :
    exec (.push chunk) s = .next (runPushWith Config.crc chunk s) := exec_push_next_iff.mpr ⟨hp, rfl⟩

@[simp] theorem runPush_phase (p : CrcParams) (chunk : List Byte) (s : State) :
    (runPushWith p chunk s).phase = .idle := rfl

theorem runPush_of_divides {p : CrcParams} {chunk r : List Byte} {s : State} {xs : List Piece}
    (hd : Divides p (s.rxbuf ++ chunk) xs r) :
    runPushWith p chunk s =
      { s.absorb xs r with
        bytesRx := counterAdd s.bytesRx chunk.length, phase := .idle, response := some (.ok .unit) } := by
  have hloop := extractLoop_of_divides (s := beginPush chunk s) hd (Nat.lt_succ_self _)
  exact congrArg (fun x => endPush x.2) hloop

/-- A PUSH divides the old buffer with the chunk, and leaves what the pieces say. -/
theorem runPush_divides (p : CrcParams) (chunk : List Byte) (s : State) :
    ∃ xs r, Divides p (s.rxbuf ++ chunk) xs r ∧ runPushWith p chunk s =
      { s.absorb xs r with
        bytesRx := counterAdd s.bytesRx chunk.length, phase := .idle, response := some (.ok .unit) } := by
  obtain ⟨xs, r, hd⟩ := exists_divides p (s.rxbuf ++ chunk)
  exact ⟨xs, r, hd, runPush_of_divides hd⟩

/-- Two pushes are the push of the concatenation (41_decoder.md R143). -/
theorem runPush_runPush (p : CrcParams) (a b : List Byte) (s : State) :
    runPushWith p b (runPushWith p a s) = runPushWith p (a ++ b) s := by
  obtain ⟨xs, r, hd, ha⟩ := runPush_divides p a s
  obtain ⟨ys, q, hd', hb⟩ := runPush_divides p b (runPushWith p a s)
  have hr : (runPushWith p a s).rxbuf = r := by rw [ha]; rfl
  rw [hr] at hd'
  have hab := divides_append hd hd'
  rw [List.append_assoc] at hab
  rw [hb, runPush_of_divides hab, ha]
  simp [State.absorb]

/-- The empty chunk on a quiescent buffer only sets the result (41_decoder.md R146). -/
theorem runPush_nil {s : State} (hp : s.phase = .idle) (hq : Quiescent s.rxbuf) (p : CrcParams) :
    runPushWith p [] s = { s with response := some (.ok .unit) } := by
  have hd : Divides p (s.rxbuf ++ []) [] s.rxbuf := ⟨List.append_nil _, hq⟩
  rw [runPush_of_divides hd, State.absorb_nil]
  simp [hp]

/-- Pushes of several chunks are one push of their concatenation (41_decoder.md R143 to R145). -/
theorem pushAll_cons {s : State} (hp : s.phase = .idle) (c : List Byte) (cs : List (List Byte)) :
    pushAll (c :: cs) s = .next (runPushWith Config.crc (c ++ cs.flatten) s) := by
  induction cs generalizing c s with
  | nil => simp [pushAll, exec_push_of_idle hp]
  | cons d ds ih =>
    have hfirst : pushAll (c :: d :: ds) s = pushAll (d :: ds) (runPushWith Config.crc c s) := by
      simp [pushAll, exec_push_of_idle hp]
    rw [hfirst, ih (runPush_phase _ _ _), runPush_runPush, List.flatten_cons]

/-- From a state that a PUSH of nothing leaves as it is, no chunk at all is a PUSH of nothing too. -/
theorem pushAll_of_settled {s : State} (hp : s.phase = .idle) (hq : Quiescent s.rxbuf)
    (hr : s.response = some (.ok .unit)) (cs : List (List Byte)) :
    pushAll cs s = .next (runPushWith Config.crc cs.flatten s) := by
  cases cs with
  | nil => rw [List.flatten_nil, runPush_nil hp hq, ← hr]; rfl
  | cons c cs => exact pushAll_cons hp c cs

/-! ### A running PUSH, transition by transition (R131) -/

theorem core_run_succ {s t : State} (h : step s = .next t) (k : Nat) :
    Host.Core.run core (k + 1) s = Host.Core.run core k t := by
  have h : core.step s = .next t := h
  simp only [Host.Core.run, h]

theorem step_of_extract {s : State} (hp : s.phase = .extract) (hr : s.requests = []) :
    step s = .next (extractTransitionWith Config.crc s) := by
  simp only [step, serveWith, hp, hr]

/-- The steps of a running PUSH follow its loop: where the loop stops, they lead to the end of the PUSH, and up to there
PHASE is EXTRACT. -/
theorem core_run_of_extractLoop {n : Nat} {s t : State} (hp : s.phase = .extract) (hr : s.requests = [])
    (hloop : extractLoopWith Config.crc n s = (.stop, t)) :
    ∃ k, k ≤ n ∧ Host.Core.run core k s = .next (endPush t) ∧
      ∀ j, j < k → ∃ u, Host.Core.run core j s = .next u ∧ u.phase = .extract := by
  induction n generalizing s with
  | zero => cases hloop
  | succ n ih =>
    have hstep := step_of_extract hp hr
    obtain ⟨-, hphase, hreqs, -⟩ := extractStep_frame Config.crc s
    rcases he : extractStepWith Config.crc s with ⟨_ | _, u⟩
    case stop =>
      rw [extractLoop_succ_stop he] at hloop
      cases hloop
      simp only [extractTransitionWith, he] at hstep
      refine ⟨1, by omega, core_run_succ hstep 0, fun j hj => ⟨s, ?_, hp⟩⟩
      obtain rfl : j = 0 := by omega
      rfl
    case again =>
      rw [extractLoop_succ_again he] at hloop
      simp only [extractTransitionWith, he] at hstep
      rw [he] at hphase hreqs
      obtain ⟨k, hk, hrun, hbefore⟩ := ih (hphase.trans hp) (hreqs.trans hr) hloop
      refine ⟨k + 1, by omega, (core_run_succ hstep k).trans hrun, fun j hj => ?_⟩
      cases j with
      | zero => exact ⟨s, rfl, hp⟩
      | succ j =>
        rw [core_run_succ hstep]
        exact hbefore j (by omega)

/-! ### Frames written out -/

/-- The layout of 30_encoding.md R60 with its markers as numbers. -/
theorem wireBytes_literal (t sd : Byte) (payload : List Byte) (c : Word16) :
    [0x55#8, t, sd, BitVec.ofNat 8 payload.length] ++ payload ++ [hi8 c, lo8 c, 0xAA#8] =
      wireBytes t sd payload c := by
  simp [wireBytes_eq]

/-- A frame with any checksum is a whole candidate, its length field being the length of its payload. -/
theorem whole_wireBytes {t sd : Byte} {payload : List Byte} {c : Word16} (h : payload.length ≤ LEN_MAX)
    (rest : List Byte) : Whole (wireBytes t sd payload c ++ rest) where
  start := by rw [List.head?_append, wireBytes_head]; rfl
  minimum := by simp only [List.length_append, wireBytes_length, MIN_FRAME]; omega
  complete := by rw [lengthField_wireBytes t sd payload c h rest]; simp

theorem take_wireBytes {t sd : Byte} {payload : List Byte} {c : Word16} (h : payload.length ≤ LEN_MAX)
    (rest : List Byte) :
    (wireBytes t sd payload c ++ rest).take (lengthField (wireBytes t sd payload c ++ rest) + OVERHEAD) =
      wireBytes t sd payload c := by
  rw [lengthField_wireBytes t sd payload c h rest]
  exact List.take_left' (wireBytes_length t sd payload c)

/-! ### Requests during a running PUSH (R139) -/

theorem exec_push_of_extract {s : State} (hp : s.phase = .extract) (chunk : List Byte) :
    exec (.push chunk) s = .refused .overlappingRequest := by
  simp only [exec, execPush, pushWith, hp]

theorem exec_reset_of_extract {s : State} (hp : s.phase = .extract) :
    exec .reset s = .refused .overlappingRequest := by
  simp only [exec, execReset, hp]

theorem step_of_overlap {s : State} {r : Request} {rest : List Request} (hp : s.phase = .extract)
    (hr : s.requests = r :: rest) : step s = .refused .overlappingRequest := by
  simp only [step, serveWith, hp, hr]

theorem runOp_of_extract {name : Option String} {o : AsmOp} {w : Session} {r : Request}
    (hp : w.machine.phase = .extract) (ho : o.request w.bindings = .ok r) :
    runOp step name o w = .refused .overlappingRequest := by
  have hstep : step (w.machine.issue r) = .refused .overlappingRequest := step_of_overlap hp rfl
  simp only [runOp, ho, hstep]

/-! ### The obligations -/

/-- Settles O43: the pieces of the first push, and then those of its residual with the second chunk, are the pieces of
the whole. -/
theorem chunkingInvariance : Obligations.ChunkingInvariance := by
  intro a b s t h
  obtain ⟨hidle, rfl⟩ := exec_push_next_iff.mp h
  rw [exec_push_of_idle (runPush_phase _ _ _), exec_push_of_idle hidle, runPush_runPush]

/-- Settles O44: the pushes of a nonempty list of chunks are one push. -/
theorem byteSerialEquivalence : Obligations.ByteSerialEquivalence := by
  intro chunk s hne hidle
  obtain ⟨b, bs, rfl⟩ := List.exists_cons_of_ne_nil hne
  have hflat : [b] ++ (bs.map fun x => [x]).flatten = b :: bs := by simp [← List.flatMap_def]
  rw [List.map_cons, pushAll_cons hidle, hflat, exec_push_of_idle hidle]

/-- Settles O46: the extraction loop reads the pieces off the buffer, and they are the only ones. -/
theorem streamSoundness : Obligations.StreamSoundness := by
  intro chunk s t h
  obtain ⟨-, rfl⟩ := exec_push_next_iff.mp h
  obtain ⟨xs, r, hd, hpush⟩ := runPush_divides Config.crc chunk s
  rw [hpush]
  exact ⟨xs, hd, fun _ _ hd' => divides_unique hd hd', divides_bytes hd, rfl, counterAdd_toNat _ _,
    counterAdd_toNat _ _⟩

/-- Settles O47: after RESET any pushes are one push of the stream onto an empty buffer with the counters at 0. -/
theorem streamFunction : Obligations.StreamFunction := by
  intro cs ds s t h hflat
  obtain ⟨-, rfl⟩ := exec_reset_next_iff.mp h
  have hall (es : List (List Byte)) : pushAll es (s.clear.respond .unit) =
      .next (runPushWith Config.crc es.flatten (s.clear.respond .unit)) := pushAll_of_settled rfl (.inl rfl) rfl es
  have hcount (n : Nat) : (counterAdd 0 n).toNat = n % 2 ^ 32 := by rw [counterAdd_toNat]; simp
  obtain ⟨xs, r, hd, hpush⟩ := runPush_divides Config.crc cs.flatten (s.clear.respond .unit)
  exact ⟨by rw [hall, hall, hflat], _, xs, (hall cs).trans (congrArg _ hpush), hd,
    fun _ _ hd' => divides_unique hd hd', rfl, hcount _, hcount _, hcount _⟩

/-- Settles O49: the loop of the PUSH stops within its bound, and the steps follow the loop. -/
theorem pushIsItsExtractionSteps : Obligations.PushIsItsExtractionSteps := by
  intro chunk s t hr h
  obtain ⟨-, rfl⟩ := exec_push_next_iff.mp h
  obtain ⟨hstop, -⟩ := extractLoop_stops_quiescent Config.crc (s := beginPush chunk s) (Nat.lt_succ_self _)
  have hbound : (beginPush chunk s).rxbuf.length + 1 = s.rxbuf.length + chunk.length + 1 :=
    congrArg (· + 1) List.length_append
  rw [← hbound]
  exact core_run_of_extractLoop rfl hr (Prod.ext hstop rfl)

/-- Settles O52: the stream is noise, a start marker that is slid off because the byte at its end-marker position is
wrong, and the frame. -/
theorem strayMarkerResync : Obligations.StrayMarkerResync := by
  intro g f r s hidle hempty hg hv hlen hfit hend
  have hslide : Piece.slide.Legit Config.crc (START :: f) := by
    have hmin : MIN_FRAME ≤ (START :: f).length := by
      simp only [List.length_cons, MIN_FRAME]
      omega
    exact ⟨⟨rfl, hmin, hfit⟩, hend⟩
  have hd : Divides Config.crc (s.rxbuf ++ (g ++ [0x55#8] ++ f)) (g.map .noise ++ [.slide, .frame r]) [] := by
    rw [hempty, List.nil_append, List.append_assoc]
    exact divides_noise hg ⟨f, rfl, hslide, divides_frame hv hlen⟩
  refine ⟨_, exec_push_of_idle hidle _, ?_⟩
  rw [runPush_of_divides hd, State.absorb_noise]
  exact ⟨rfl, rfl, counterAdd_zero _, rfl⟩

/-- Settles O29: the step sees of RXBUF only what step 1 leaves of it. -/
theorem stepDiscardsLeadingNoise : Obligations.StepDiscardsLeadingNoise := by
  intro p s noise rest hnoise
  have hnil : resync noise = resync [] := by
    rw [← List.append_nil noise, resync_append_noise hnoise]
  refine ⟨extractStep_resync p (resync_append_noise hnoise _), ?_⟩
  rw [extractStep_resync p hnil]
  exact Quiescent.extractStep (s := { s with rxbuf := [] }) (.inl rfl) p

/-- Settles O30: a buffer that begins with an incomplete candidate is quiescent. -/
theorem incompleteCandidateWaits : Obligations.IncompleteCandidateWaits := by
  intro p s hs hlen
  exact Quiescent.extractStep (.inr ⟨hs, hlen⟩) p

/-- Settles O31: the piece at the front is the slid start marker. -/
theorem framingErrorSlidesOneByte : Obligations.FramingErrorSlidesOneByte := by
  intro p s rest hs hm hc he
  have hw : Whole s.rxbuf := ⟨by rw [hs]; rfl, hm, hc⟩
  have hx : Piece.slide.Legit p s.rxbuf := ⟨hw, he⟩
  rw [hx.extractStep hw hs, State.absorb_slide]

/-- Settles O32: the piece at the front is the candidate, of which VALIDATE finds the checksum wrong. -/
theorem checksumErrorDiscardsCandidate : Obligations.ChecksumErrorDiscardsCandidate := by
  intro p s t sd payload rest c hlen hc hs
  rw [wireBytes_literal] at hs
  have hw : Whole s.rxbuf := by rw [hs]; exact whole_wireBytes hlen rest
  have hv := (validateFrame_wireBytes p t sd payload c hlen []).trans (if_neg hc)
  rw [List.append_nil] at hv
  have hx : (Piece.corrupt (wireBytes t sd payload c)).Legit p s.rxbuf :=
    ⟨hw, by rw [hs, take_wireBytes hlen], _, _, hv⟩
  rw [hx.extractStep hw hs, State.absorb_corrupt]

/-- Settles O33: the piece at the front is the frame, which VALIDATE accepts. -/
theorem validFrameIsEmitted : Obligations.ValidFrameIsEmitted := by
  intro p s t sd payload rest hlen c hs
  have hwire : s.rxbuf = wireFrame p t sd payload ++ rest := by rw [hs, wireBytes_literal]; rfl
  have hw : Whole s.rxbuf := by rw [hwire]; exact whole_wireBytes hlen rest
  have hx : (Piece.frame ⟨t, sd, BitVec.ofNat 8 payload.length, payload, c⟩).Legit p s.rxbuf :=
    ⟨hw, by rw [validateFrame_take, hwire]; exact validateFrame_wireFrame p t sd hlen rest⟩
  rw [hx.extractStep hw hs, State.absorb_frame]

/-- Settles O34: `Whole.extractStep_cases`, with L written out. -/
theorem stepFourIsValidate : Obligations.StepFourIsValidate := by
  intro p s hs hm hc
  have hw : Whole s.rxbuf := ⟨hs, hm, hc⟩
  rcases hw.extractStep_cases p with ⟨-, ⟨o, v, hv⟩, hstep⟩ | ⟨⟨tx, rc, hv⟩, hstep⟩ | ⟨f, hv, -, hstep⟩
  · exact .inl ⟨o, v, hv, hstep⟩
  · exact .inr (.inl ⟨tx, rc, hv, hstep⟩)
  · exact .inr (.inr ⟨f, hv, hstep⟩)

/-- Settles O35: PUSH completes at PHASE IDLE, and its pieces say what it counts and emits. -/
theorem pushCompletes : Obligations.PushCompletes := by
  intro chunk s hidle
  obtain ⟨xs, r, -, hpush⟩ := runPush_divides Config.crc chunk s
  refine ⟨_, xs.filterMap Piece.emits, exec_push_of_idle hidle chunk, ?_⟩
  rw [hpush]
  exact ⟨rfl, rfl, rfl, counterAdd_toNat _ _, rfl, counterAdd_toNat _ _⟩

/-- Settles O36: the stream is the frame and nothing else. -/
theorem pushOfFrameEmitsIt : Obligations.PushOfFrameEmitsIt := by
  intro t sd payload s hidle hempty hlen c
  have hv := validateFrame_wireFrame Config.crc t sd hlen []
  rw [List.append_nil] at hv
  have hd := divides_frame hv (wireBytes_length _ _ _ _)
  rw [← List.nil_append (wireFrame _ _ _ _), ← hempty] at hd
  have hpush := runPush_of_divides hd
  rw [State.absorb_frame, wireFrame, wireBytes_length, ← hidle] at hpush
  rw [wireBytes_literal, exec_push_of_idle hidle]
  exact congrArg _ hpush

/-- Settles O40: a step that does not stop removes a byte, and any bound larger than the buffer reads the same
pieces. -/
theorem loopStopsWithinBound : Obligations.LoopStopsWithinBound := by
  intro p s m hm
  obtain ⟨xs, r, hd, hloop⟩ := extractLoop_divides p (s := s) hm
  refine ⟨?_, by rw [hloop], by rw [hloop, extractLoop_of_divides hd (Nat.lt_succ_self _)]⟩
  rcases he : extractStepWith p s with ⟨_ | _, t⟩
  case stop => exact .inl rfl
  case again => exact .inr (extractStep_again_shorter he)

/-- Settles O41: the loop of a PUSH stops on a quiescent buffer, and RESET leaves the empty one. -/
theorem quiescentAfterPushAndReset : Obligations.QuiescentAfterPushAndReset := by
  refine ⟨fun chunk s t h => ?_, fun s t h => ?_, fun p s hq => hq.extractStep p⟩
  · obtain ⟨-, rfl⟩ := exec_push_next_iff.mp h
    exact runPush_quiescent Config.crc chunk s
  · obtain ⟨-, rfl⟩ := exec_reset_next_iff.mp h
    exact .inl rfl

/-- Settles O42: what a PUSH leaves is quiescent, and a quiescent buffer is shorter than the longest frame. -/
theorem residualBound : Obligations.ResidualBound := by
  intro a b s t h
  obtain ⟨-, rfl⟩ := exec_push_next_iff.mp h
  have hlt : (runPushWith Config.crc a s).rxbuf.length < 262 := (runPush_quiescent Config.crc a s).length_lt
  rw [List.length_append]
  omega

/-- Settles O45: a quiescent buffer divides into no piece. -/
theorem emptyPushChangesNothing : Obligations.EmptyPushChangesNothing := by
  intro s hidle hq
  rw [exec_push_of_idle hidle, runPush_nil hidle hq]

/-- Settles O10: with PHASE EXTRACT the two operations refuse, and so does the interface whatever is requested. -/
theorem overlappingRequestsRefused : Obligations.OverlappingRequestsRefused := by
  intro s hp
  refine ⟨exec_push_of_extract hp, exec_reset_of_extract hp, fun _ _ => step_of_overlap hp, fun _ => step_of_overlap hp,
    fun _ => step_of_overlap hp rfl, step_of_overlap hp rfl, fun name e bs env hbs => ?push, fun name env => ?reset⟩
  case push =>
    have hreq : (AsmOp.push e).request env = .ok (encode (.push bs)) := by
      rw [AsmOp.request, show BytesExpr.eval opPush env e = .ok bs from hbs]
      rfl
    exact runOp_of_extract (w := { machine := s, bindings := env }) hp hreq
  case reset =>
    have hreq : AsmOp.reset.request env = .ok (encode .reset) := rfl
    exact runOp_of_extract (w := { machine := s, bindings := env }) hp hreq

end Sys2Proof.Machine
end

section
/-! PROOFS of 42_control.md: what follows a RESET is one PUSH of the stream onto an empty buffer, what RESET leaves, and
what READ_STATUS answers or refuses. -/

namespace Sys2Proof.Machine

/-! ### Pushes after a RESET (R173) -/

/-- After a RESET any pushes are one push of the stream. -/
theorem pushAll_clear (cs : List (List Byte)) (s : State) :
    pushAll cs (s.clear.respond .unit) = .next (runPushWith Config.crc cs.flatten (s.clear.respond .unit)) :=
  pushAll_of_settled rfl (.inl rfl) rfl cs

/-! ### READ_STATUS (R170, R171) -/

/-- A counter already has the width of the status word (42_control.md R170). -/
@[simp] theorem zext32_eq (c : Counter) : zext32 c = c := BitVec.setWidth_eq c

theorem State.statusRegister_zero (s : State) : s.statusRegister 0 = some s.framesRx := congrArg some (zext32_eq _)

theorem State.statusRegister_one (s : State) : s.statusRegister 1 = some s.bytesRx := congrArg some (zext32_eq _)

theorem State.statusRegister_two (s : State) : s.statusRegister 2 = some s.crcFail := congrArg some (zext32_eq _)

theorem State.statusRegister_of_reserved (s : State) {n : Nat} (h : STATUS_INDICES ≤ n) : s.statusRegister n = none :=
  Option.eq_none_iff_forall_ne_some.mpr fun v hv =>
    absurd (State.exists_statusRegister_iff.mp ⟨v, hv⟩) (Nat.not_lt.mpr h)

theorem exec_readStatus_of_register {s : State} {n : Nat} {v : Word32} (h : s.statusRegister n = some v) :
    exec (.readStatus n) s = .next (s.respond (.count v)) :=
  exec_readStatus_next_iff.mpr ⟨v, h, rfl⟩

theorem exec_readStatus_of_reserved (s : State) {n : Nat} (h : STATUS_INDICES ≤ n) :
    exec (.readStatus n) s = .refused (.reservedStatusIndex n) := by
  simp only [exec, execReadStatus, s.statusRegister_of_reserved h]

/-! ### The obligations -/

/-- Settles O48: after either RESET the pushes divide the same stream into the same pieces, from an empty buffer and
counters at 0. -/
theorem nothingCrossesReset : Obligations.NothingCrossesReset := by
  intro cs s s' t t' h h'
  obtain ⟨-, rfl⟩ := exec_reset_next_iff.mp h
  obtain ⟨-, rfl⟩ := exec_reset_next_iff.mp h'
  obtain ⟨xs, r, hd, hpush⟩ := runPush_divides Config.crc cs.flatten (s.clear.respond .unit)
  have hpush' := runPush_of_divides (s := s'.clear.respond .unit) hd
  exact ⟨_, _, xs.filterMap Piece.emits, (pushAll_clear cs s).trans (congrArg _ hpush),
    (pushAll_clear cs s').trans (congrArg _ hpush'), rfl, rfl, rfl, rfl, rfl, rfl⟩

/-- Settles O2: a second RESET finds PHASE IDLE and clears what is clear already. -/
theorem resetClearsAllButFrameOut : Obligations.ResetClearsAllButFrameOut := by
  intro s hidle
  exact ⟨s.clear.respond .unit, exec_reset_next_iff.mpr ⟨hidle, rfl⟩, rfl, rfl, rfl, rfl, rfl, rfl, rfl, rfl,
    exec_reset_next_iff.mpr ⟨rfl, rfl⟩⟩

/-- Settles O55: a status register is its counter, and a reserved index decodes, so that the operation itself
refuses it. -/
theorem readStatusAnswersCounter : Obligations.ReadStatusAnswersCounter := by
  intro s
  refine ⟨exec_readStatus_of_register s.statusRegister_zero, exec_readStatus_of_register s.statusRegister_one,
    exec_readStatus_of_register s.statusRegister_two, fun n hn => ⟨exec_readStatus_of_reserved s hn, ?_⟩⟩
  intro rest hp hr
  rw [stepRunsDecodedRequest s _ rest (.readStatus n) hp hr (decode_eq_ok_iff.mpr rfl)]
  exact exec_readStatus_of_reserved _ hn

end Sys2Proof.Machine
end

section
/-! PROOFS of 60_exceptions.md: the codes of the errors, which operation ends with which of them and what it leaves, and
that every well-formed operation completes at PHASE IDLE. -/

namespace Sys2Proof.Machine

/-! ### Which function answers which error (R201 to R205) -/

/-- ENCODE's errors are InvalidAddress and PayloadTooLong (60_exceptions.md R201, R202). -/
theorem encodeFrame_error_code {p : CrcParams} {target sender : Int} {payload : List Byte} {e : ErrorResult}
    (h : encodeFrame p target sender payload = .error e) : e.code = 0x01#8 ∨ e.code = 0x02#8 := by
  by_cases ht : TARGET_MIN ≤ target ∧ target ≤ TARGET_MAX
  · by_cases hs : sender = SENDER_ID
    · subst hs
      rcases Nat.lt_or_ge LEN_MAX payload.length with hl | hl
      · obtain rfl := Except.error.inj ((encodeFrame_of_long ht hl).symm.trans h)
        exact .inr rfl
      · exact absurd (h.symm.trans (encodeFrame_ok_iff.mpr ⟨ht, rfl, hl, rfl⟩)) nofun
    · obtain rfl := Except.error.inj ((encodeFrame_of_sender ht hs).symm.trans h)
      exact .inl rfl
  · obtain rfl := Except.error.inj ((encodeFrame_of_target ht).symm.trans h)
    exact .inl rfl

/-- VALIDATE's errors are the five from NoStartMarker on (60_exceptions.md R203 to R205). -/
theorem validateFrame_error_code {p : CrcParams} {cand : List Byte} {e : ErrorResult}
    (h : validateFrame p cand = .error e) : 0x03#8 ≤ e.code := by
  by_cases hs : cand.head? = some START
  · rcases Nat.lt_or_ge cand.length MIN_FRAME with hm | hm
    · obtain rfl := Except.error.inj ((validateFrame_of_short hs hm).symm.trans h)
      simp [ErrorResult.code]
    · rcases Nat.lt_or_ge cand.length (lengthField cand + OVERHEAD) with hc | hc
      · obtain rfl := Except.error.inj ((validateFrame_of_truncated hs hm hc).symm.trans h)
        simp [ErrorResult.code]
      · rw [(Whole.mk hs hm hc).validateFrame_eq] at h
        split_ifs at h <;> obtain rfl := Except.error.inj h <;> simp [ErrorResult.code]
  · obtain rfl := Except.error.inj ((validateFrame_of_noStart hs).symm.trans h)
    simp [ErrorResult.code]

/-! ### Which operation ends with an error, and what it leaves (R200, R210) -/

/-- The end of a codec operation is an error exactly when the codec function answers that error. -/
theorem State.answer_map_response_error_iff {α : Type} {x : Except ErrorResult α} {f : α → Value} {s : State}
    {e : ErrorResult} : (s.answer (x.map f)).response = some (.error e) ↔ x = .error e := by
  cases x <;> simp [Except.map]

@[simp] theorem runPush_response (p : CrcParams) (chunk : List Byte) (s : State) :
    (runPushWith p chunk s).response = some (.ok .unit) := rfl

@[simp] theorem runPush_requests (p : CrcParams) (chunk : List Byte) (s : State) :
    (runPushWith p chunk s).requests = s.requests := by
  obtain ⟨-, -, hreq, -⟩ := extractLoop_frame p ((beginPush chunk s).rxbuf.length + 1) (beginPush chunk s)
  exact hreq

/-- An operation ends with an error only where the codec function of an ENCODE or a VALIDATE answers it; PUSH never
does (41_decoder.md R138). -/
theorem exec_error_cases {i : Instr} {s t : State} {e : ErrorResult} (h : exec i s = .next t)
    (he : t.response = some (.error e)) :
    (∃ target sender payload, i = .encode target sender payload ∧
      encodeFrame Config.crc target sender payload = .error e) ∨
    (∃ cand, i = .validate cand ∧ validateFrame Config.crc cand = .error e) := by
  cases i with
  | encode target sender payload =>
    obtain rfl := Host.Outcome.next.inj h
    exact .inl ⟨target, sender, payload, rfl, State.answer_map_response_error_iff.mp he⟩
  | validate cand =>
    obtain rfl := Host.Outcome.next.inj h
    exact .inr ⟨cand, rfl, State.answer_map_response_error_iff.mp he⟩
  | crc data =>
    obtain rfl := Host.Outcome.next.inj h
    simp at he
  | push chunk =>
    obtain ⟨-, rfl⟩ := exec_push_next_iff.mp h
    simp at he
  | readStatus n =>
    obtain ⟨v, -, rfl⟩ := exec_readStatus_next_iff.mp h
    simp at he
  | reset =>
    obtain ⟨-, rfl⟩ := exec_reset_next_iff.mp h
    simp at he

/-- An operation that ends with an error sets the result and writes nothing else (60_exceptions.md R200). -/
theorem exec_error_eq_raise {i : Instr} {s t : State} {e : ErrorResult} (h : exec i s = .next t)
    (he : t.response = some (.error e)) : t = s.raise e := by
  rcases exec_error_cases h he with ⟨target, sender, payload, rfl, hx⟩ | ⟨cand, rfl, hx⟩
  · exact Host.Outcome.next.inj (h.symm.trans (exec_encode_of_error hx s))
  · exact Host.Outcome.next.inj (h.symm.trans (exec_validate_of_error hx s))

theorem sameBlock_raise (s : State) (e : ErrorResult) : SameBlock s (s.raise e) := ⟨rfl, rfl, rfl, rfl, rfl, rfl⟩

/-! ### Every operation completes between operations (R213) -/

/-- At PHASE IDLE only READ_STATUS of a reserved index does not complete (42_control.md R171). -/
theorem exists_exec_next {i : Instr} {s : State} (hw : WellFormed i = true) (hidle : s.phase = .idle) :
    ∃ t, exec i s = .next t := by
  cases i with
  | encode target sender payload => exact ⟨_, rfl⟩
  | validate cand => exact ⟨_, rfl⟩
  | crc data => exact ⟨_, rfl⟩
  | push chunk => exact ⟨_, exec_push_of_idle hidle chunk⟩
  | readStatus n =>
    obtain ⟨v, hv⟩ := (State.exists_statusRegister_iff (s := s)).mpr (of_decide_eq_true hw)
    exact ⟨_, exec_readStatus_of_register hv⟩
  | reset => exact ⟨_, exec_reset_next_iff.mpr ⟨hidle, rfl⟩⟩

/-- A completed operation leaves PHASE and the pending requests as they were, and a result. -/
theorem exec_next_frame {i : Instr} {s t : State} (h : exec i s = .next t) :
    t.phase = s.phase ∧ t.requests = s.requests ∧ t.response ≠ none := by
  rcases exec_next_cases h with ⟨chunk, -, hidle, rfl⟩ | ⟨-, hidle, rfl⟩ | ⟨-, -, r, rfl⟩
  · exact ⟨hidle.symm, runPush_requests _ _ _, nofun⟩
  · exact ⟨hidle.symm, rfl, nofun⟩
  · exact ⟨rfl, rfl, nofun⟩

/-! ### The obligations -/

/-- Settles O12: a well-formed operation completes at PHASE IDLE, and what completes keeps PHASE and the requests. -/
theorem everyOperationAvailable : Obligations.EveryOperationAvailable := by
  intro i s hw hidle
  obtain ⟨t, ht⟩ := exists_exec_next hw hidle
  obtain ⟨hphase, hreq, hresp⟩ := exec_next_frame ht
  exact ⟨t, ht, hphase.trans hidle, hreq, hresp⟩

/-- Settles O28: an error is raised, and the codes tell ENCODE's errors from VALIDATE's. -/
theorem errorsOnlyFromTheirOperation : Obligations.ErrorsOnlyFromTheirOperation := by
  intro i s t e h he
  have hcase := exec_error_cases h he
  obtain rfl := exec_error_eq_raise h he
  refine ⟨sameBlock_raise s e, State.raise_requests s e, fun hcode => ?_, fun hcode => ?_⟩
  · rcases hcase with ⟨a, b, p, rfl, -⟩ | ⟨c, -, hx⟩
    · exact ⟨a, b, p, rfl⟩
    · have hcodes := validateFrame_error_code hx
      bv_omega
  · rcases hcase with ⟨a, b, p, -, hx⟩ | ⟨c, rfl, -⟩
    · have hcodes := encodeFrame_error_code hx
      bv_omega
    · exact ⟨c, rfl⟩

/-- Settles O27: the code of an error is a matter of its constructor alone. -/
theorem errorCodes : Obligations.ErrorCodes :=
  ⟨fun _ _ => rfl, fun _ => rfl, fun _ => rfl, fun _ => rfl, fun _ _ => rfl, fun _ _ => rfl, fun _ _ => rfl⟩

end Sys2Proof.Machine
end

section
/-! PROOFS of 70_reset_and_hazards.md: an idle block waits, a spurious start marker holds the stream back while its
candidate is incomplete, and a spurious candidate takes the frame inside it along when its checksum is wrong. -/

namespace Sys2Proof.Machine

/-! ### An idle block (R240) -/

/-- At PHASE IDLE with nothing requested a step changes nothing (log entry 3). -/
theorem step_of_idle {s : State} (hp : s.phase = .idle) (hr : s.requests = []) : step s = .next s := by
  simp only [step, serveWith, hp, hr]

/-! ### Pushes of known pieces (R241, R242) -/

theorem pushWith_of_idle {s : State} (hp : s.phase = .idle) (p : CrcParams) (chunk : List Byte) :
    pushWith p chunk s = .next (runPushWith p chunk s) := by
  simp only [pushWith, hp]

/-- A PUSH that leaves no whole candidate at the front of the buffer only holds and counts its chunk (41_decoder.md
R137). -/
theorem runPush_of_quiescent {s : State} {chunk : List Byte} (hp : s.phase = .idle)
    (hq : Quiescent (s.rxbuf ++ chunk)) (p : CrcParams) :
    runPushWith p chunk s =
      { s with
        rxbuf := s.rxbuf ++ chunk, bytesRx := counterAdd s.bytesRx chunk.length, response := some (.ok .unit) } := by
  rw [runPush_of_divides ((divides_nil p _ _).mpr ⟨rfl, hq⟩), State.absorb_nil, ← hp]

/-- The wire layout with a wrong checksum is one corrupt candidate (41_decoder.md R133). -/
theorem divides_corrupt {p : CrcParams} {t sd : Byte} {payload : List Byte} {c : Word16}
    (hlen : payload.length ≤ LEN_MAX) (hc : c ≠ crc16 p (frameInterior t sd payload)) :
    Divides p (wireBytes t sd payload c) [.corrupt (wireBytes t sd payload c)] [] := by
  have hw : Whole (wireBytes t sd payload c) := by simpa using whole_wireBytes hlen []
  have htake := take_wireBytes (t := t) (sd := sd) (c := c) hlen []
  have hv := (validateFrame_wireBytes p t sd payload c hlen []).trans (if_neg hc)
  rw [List.append_nil] at htake hv
  exact ⟨[], (List.append_nil _).symm, ⟨hw, htake.symm, _, _, hv⟩, rfl, .inl rfl⟩

/-! ### The obligations -/

/-- Settles O53: with the chunk appended the buffer is still quiescent, since its length field is already there. -/
theorem stallBehindSpuriousMarker : Obligations.StallBehindSpuriousMarker := by
  intro chunk s hidle hs hfield hincomplete
  have hlen : lengthField (s.rxbuf ++ chunk) = (s.rxbuf.getD 3 0#8).toNat :=
    congrArg BitVec.toNat (byteAt_append_left hfield)
  have hq : Quiescent (s.rxbuf ++ chunk) :=
    .inr ⟨by rw [List.head?_append, hs]; rfl, .inr (by rw [hlen]; exact hincomplete)⟩
  rw [exec_push_of_idle hidle, runPush_of_quiescent hidle hq]
  rfl

/-- Settles O11, by induction on the number of steps. -/
theorem idleBlockWaits : Obligations.IdleBlockWaits := by
  intro s hp hr k
  induction k with
  | zero => rfl
  | succ k ih => rw [core_run_succ (step_of_idle hp hr), ih]

/-- Settles O54: the eleven bytes are the wire layout of the spurious candidate, whose payload is the front of the
genuine frame and whose checksum is that frame's. -/
theorem spuriousCandidateSwallowsFrame : Obligations.SpuriousCandidateSwallowsFrame := by
  intro p s hidle hempty hne c chunk
  have hchunk : s.rxbuf ++ chunk = wireBytes 0x01#8 0x00#8 [0x55#8, 0x02#8, 0x00#8, 0x00#8] c := by
    rw [hempty]
    rfl
  have hd := divides_corrupt (t := 0x01#8) (sd := 0x00#8) (payload := [0x55#8, 0x02#8, 0x00#8, 0x00#8])
    (by decide) hne.symm
  rw [← hchunk] at hd
  rw [pushWith_of_idle hidle, runPush_of_divides hd, State.absorb_corrupt, ← hidle, ← hempty]
  rfl

end Sys2Proof.Machine
end
